-- ==== Sys2Proof/Word.lean ====
section
/-! DEFINITION. The word types of the core (R8, R10): 32-bit words, bytes, and 5-bit register numbers with the
names of R17 that a rule of the core mentions. -/

namespace Sys2Proof

/-- A 32-bit word: a register, an address, an instruction, a memory word (R8). -/
abbrev Word := BitVec 32

/-- One byte of memory, the unit that addresses count (R50). -/
abbrev Byte := BitVec 8

/-- A 5-bit register field: it names one of `x[0]` to `x[31]` (R20, R92). -/
abbrev Reg := BitVec 5

/-- `$zero`, register 0 (R17). -/
abbrev Reg.zero : Reg := 0#5
/-- `$v0`, register 2: the syscall-number register (R17, R210). -/
abbrev Reg.v0 : Reg := 2#5
/-- `$a0`, register 4: the syscall-argument register (R17, R211). -/
abbrev Reg.a0 : Reg := 4#5
/-- `$sp`, register 29: the register that reset sets to `SP_INIT` (R17, R341). -/
abbrev Reg.sp : Reg := 29#5
/-- `$ra`, register 31: the link register of `jal` and `jalr` (R17, R127). -/
abbrev Reg.ra : Reg := 31#5

end Sys2Proof
end

