-- ==== Sys2Proof/Config.lean ====
section
/-! DEFINITION. The parameters the spec leaves open (R9), as one record of plain data. State holds one such record,
so the machine is modelled for every value of the parameters at once; no step changes it. -/

namespace Sys2Proof

/-- The eleven optional instructions (R3, R280). -/
inductive OptionalOp where
  | addu | subu | sltu | sllv | srlv | srav | addiu | slti | sltiu | lbu | lhu
  deriving DecidableEq, Repr

/-- `STRING_BYTE_ORDER` (R9, R63): how the host splits a word into characters. -/
inductive ByteOrder where
  | bigEndian | littleEndian
  deriving DecidableEq, Repr

/-- The named parameters of R9. -/
structure Config where
  /-- `TEXT_BASE`: the address of memory word 0. -/
  textBase : Word
  /-- `N` (`INSTR_CAPACITY`): the words of the instruction segment. -/
  instrCapacity : Nat
  /-- `M` (`DATA_WORDS`): the words of the data segment. -/
  dataWords : Nat
  /-- `SP_INIT`: the reset value of `x[29]`. -/
  spInit : Word
  /-- `OPTIONAL_OPS`: the optional instructions the decoder admits (read as a set). Its default is empty (R3, R280). -/
  optionalOps : List OptionalOp := []
  /-- `STRICT_DECODE`: whether fields an instruction does not use must be zero. Its default is true (R88). -/
  strictDecode : Bool := true
  /-- `STRING_BYTE_ORDER`: host side only; no rule of the core reads it (R63). -/
  stringByteOrder : ByteOrder
  deriving DecidableEq, Repr

/-- All eleven optional instructions. -/
def OptionalOp.all : List OptionalOp :=
  [.addu, .subu, .sltu, .sllv, .srlv, .srav, .addiu, .slti, .sltiu, .lbu, .lhu]

/-- The parameter values State.reset uses: the spec's defaults for `OPTIONAL_OPS` and `STRICT_DECODE` (R88, R280), and
the example values of R9 for the rest. DESIGN CHOICE, unsafe (notes/assumptions/1.md): the spec gives no value for the
base, the sizes, the stack pointer or the byte order. -/
def Config.reference : Config where
  textBase := 0x00001000#32
  instrCapacity := 64
  dataWords := 64
  spInit := 0x000011FC#32
  stringByteOrder := .bigEndian

/-- Whether `OPTIONAL_OPS` holds an optional instruction (R90). -/
def Config.admits (c : Config) (op : OptionalOp) : Bool := c.optionalOps.contains op

end Sys2Proof
end

