-- ==== Sys2Proof/Syntax.lean ====
section
/-! DEFINITION. The instructions, one constructor per row of the opcode map (R95), and the decoded Instruction
record of R34 with its formats (R81 to R83) and syntax classes (R112). -/

namespace Sys2Proof

/-- A decoded instruction with the operand fields its rule reads, in the order its assembly text names them (R95).
Immediates are kept as the unsigned 16-bit field; extension happens at execution (R86). -/
inductive Instr where
  /-- `add rd, rs, rt` (R161). -/
  | add (rd rs rt : Reg)
  /-- `sub rd, rs, rt` (R162). -/
  | sub (rd rs rt : Reg)
  /-- `and rd, rs, rt` (R163). -/
  | and (rd rs rt : Reg)
  /-- `or rd, rs, rt` (R164). -/
  | or (rd rs rt : Reg)
  /-- `nor rd, rs, rt` (R165). -/
  | nor (rd rs rt : Reg)
  /-- `xor rd, rs, rt` (R166). -/
  | xor (rd rs rt : Reg)
  /-- `sll rd, rt, shamt` (R167). -/
  | sll (rd rt : Reg) (shamt : BitVec 5)
  /-- `srl rd, rt, shamt` (R168). -/
  | srl (rd rt : Reg) (shamt : BitVec 5)
  /-- `sra rd, rt, shamt` (R169). -/
  | sra (rd rt : Reg) (shamt : BitVec 5)
  /-- `slt rd, rs, rt` (R170). -/
  | slt (rd rs rt : Reg)
  /-- `jr rs` (R181). -/
  | jr (rs : Reg)
  /-- `jalr rs` (R182). -/
  | jalr (rs : Reg)
  /-- `mfhi rd` (R191). -/
  | mfhi (rd : Reg)
  /-- `mflo rd` (R192). -/
  | mflo (rd : Reg)
  /-- `mthi rs` (R193). -/
  | mthi (rs : Reg)
  /-- `mtlo rs` (R194). -/
  | mtlo (rs : Reg)
  /-- `mult rs, rt` (R195). -/
  | mult (rs rt : Reg)
  /-- `multu rs, rt` (R196). -/
  | multu (rs rt : Reg)
  /-- `div rs, rt` (R197). -/
  | div (rs rt : Reg)
  /-- `divu rs, rt` (R198). -/
  | divu (rs rt : Reg)
  /-- `syscall` (R210). -/
  | syscall
  /-- `addi rt, rs, imm` (R221). -/
  | addi (rt rs : Reg) (imm : BitVec 16)
  /-- `andi rt, rs, imm` (R222). -/
  | andi (rt rs : Reg) (imm : BitVec 16)
  /-- `ori rt, rs, imm` (R223). -/
  | ori (rt rs : Reg) (imm : BitVec 16)
  /-- `xori rt, rs, imm` (R224). -/
  | xori (rt rs : Reg) (imm : BitVec 16)
  /-- `lui rt, imm` (R225). -/
  | lui (rt : Reg) (imm : BitVec 16)
  /-- `beq rs, rt, label` (R241). -/
  | beq (rs rt : Reg) (imm : BitVec 16)
  /-- `bne rs, rt, label` (R242). -/
  | bne (rs rt : Reg) (imm : BitVec 16)
  /-- `lb rt, offset(rs)` (R251). -/
  | lb (rt rs : Reg) (imm : BitVec 16)
  /-- `lh rt, offset(rs)` (R252). -/
  | lh (rt rs : Reg) (imm : BitVec 16)
  /-- `lw rt, offset(rs)` (R253). -/
  | lw (rt rs : Reg) (imm : BitVec 16)
  /-- `sb rt, offset(rs)` (R254). -/
  | sb (rt rs : Reg) (imm : BitVec 16)
  /-- `sh rt, offset(rs)` (R255). -/
  | sh (rt rs : Reg) (imm : BitVec 16)
  /-- `sw rt, offset(rs)` (R256). -/
  | sw (rt rs : Reg) (imm : BitVec 16)
  /-- `j label` (R271). -/
  | j (target : BitVec 26)
  /-- `jal label` (R272). -/
  | jal (target : BitVec 26)
  /-- `addu rd, rs, rt; optional` (R281). -/
  | addu (rd rs rt : Reg)
  /-- `subu rd, rs, rt; optional` (R282). -/
  | subu (rd rs rt : Reg)
  /-- `sltu rd, rs, rt; optional` (R283). -/
  | sltu (rd rs rt : Reg)
  /-- `sllv rd, rt, rs; optional` (R284). -/
  | sllv (rd rt rs : Reg)
  /-- `srlv rd, rt, rs; optional` (R285). -/
  | srlv (rd rt rs : Reg)
  /-- `srav rd, rt, rs; optional` (R286). -/
  | srav (rd rt rs : Reg)
  /-- `addiu rt, rs, imm; optional` (R287). -/
  | addiu (rt rs : Reg) (imm : BitVec 16)
  /-- `slti rt, rs, imm; optional` (R288). -/
  | slti (rt rs : Reg) (imm : BitVec 16)
  /-- `sltiu rt, rs, imm; optional` (R289). -/
  | sltiu (rt rs : Reg) (imm : BitVec 16)
  /-- `lbu rt, offset(rs); optional` (R290). -/
  | lbu (rt rs : Reg) (imm : BitVec 16)
  /-- `lhu rt, offset(rs); optional` (R291). -/
  | lhu (rt rs : Reg) (imm : BitVec 16)
  deriving DecidableEq, Repr

/-- The three instruction formats (R81, R82, R83). -/
inductive Format where
  | r | i | j
  deriving DecidableEq, Repr

/-- The syntax classes of R112. The source has fifteen; two of them are not identified by the spec. -/
inductive SyntaxClass where
  | arithLog | loadStore | branch | jump | trap
  | shift | shiftV | arithLogI | loadI | jumpR | moveFrom | moveTo | divMult
  deriving DecidableEq, Repr

/-- The decoded Instruction record of R34. Fields its syntax class does not use are zero (R86).
`format` is `none` for a record of a format that is not R, I or J; the decoder makes no such record, and executing
one raises `BAD_FORMAT` (R125, R313). -/
structure Record where
  format : Option Format
  /-- The numeric id: the funct value for R format, the opcode for I and J (R87). -/
  id : BitVec 6
  mnemonic : String
  syntaxClass : SyntaxClass
  rs : Reg := 0#5
  rt : Reg := 0#5
  rd : Reg := 0#5
  shamt : BitVec 5 := 0#5
  imm : BitVec 16 := 0#16
  target : BitVec 26 := 0#26
  /-- Text, used only by the assembler (R34); the decoder leaves it empty. -/
  label : String := ""
  deriving DecidableEq, Repr

end Sys2Proof
end

