-- ==== Sys2Proof/WellFormed.lean ====
section
/-! DEFINITION. What makes a configuration and an instruction meaningful: the constraints of R9 on the parameters, and
the admission of optional instructions by `OPTIONAL_OPS` (R90). The widths of the fields are in their types. -/

namespace Sys2Proof

/-- The base of the array is word-aligned (R9: a multiple of 4). -/
abbrev Config.BaseAligned (c : Config) : Prop := c.textBase.toNat % 4 = 0
/-- The instruction segment has a word (R9: N >= 1). -/
abbrev Config.HasInstrSegment (c : Config) : Prop := 1 ≤ c.instrCapacity
/-- The data segment has a word (R9: M >= 1). -/
abbrev Config.HasDataSegment (c : Config) : Prop := 1 ≤ c.dataWords
/-- The array fits the address space (R9: `TEXT_BASE + 4*(N+M) <= 2^32`). -/
abbrev Config.Fits (c : Config) : Prop := c.textBase.toNat + 4 * (c.instrCapacity + c.dataWords) ≤ 2 ^ 32

/-- The constraints of R9 on the parameters. -/
abbrev Config.WellFormed (c : Config) : Prop :=
  c.BaseAligned ∧ c.HasInstrSegment ∧ c.HasDataSegment ∧ c.Fits

/-- The member of the optional set an instruction is, if it is one (R3). -/
def Instr.optionalOp : Instr → Option OptionalOp
  | .addu _ _ _ => some .addu
  | .subu _ _ _ => some .subu
  | .sltu _ _ _ => some .sltu
  | .sllv _ _ _ => some .sllv
  | .srlv _ _ _ => some .srlv
  | .srav _ _ _ => some .srav
  | .addiu _ _ _ => some .addiu
  | .slti _ _ _ => some .slti
  | .sltiu _ _ _ => some .sltiu
  | .lbu _ _ _ => some .lbu
  | .lhu _ _ _ => some .lhu
  | .add _ _ _ | .sub _ _ _ | .and _ _ _ | .or _ _ _ | .nor _ _ _ | .xor _ _ _ => none
  | .sll _ _ _ | .srl _ _ _ | .sra _ _ _ | .slt _ _ _ | .jr _ | .jalr _ => none
  | .mfhi _ | .mflo _ | .mthi _ | .mtlo _ | .mult _ _ | .multu _ _ | .div _ _ | .divu _ _ => none
  | .syscall | .addi _ _ _ | .andi _ _ _ | .ori _ _ _ | .xori _ _ _ | .lui _ _ => none
  | .beq _ _ _ | .bne _ _ _ | .lb _ _ _ | .lh _ _ _ | .lw _ _ _ | .sb _ _ _ | .sh _ _ _ | .sw _ _ _ => none
  | .j _ | .jal _ => none

/-- An instruction is well-formed for a configuration when it belongs to the core set or the configuration admits it
(R3, R90). -/
def Instr.wellFormed (c : Config) (i : Instr) : Bool :=
  match i.optionalOp with
  | none => true
  | some op => c.admits op

end Sys2Proof
end

