-- ==== Sys2Proof/Decode.lean ====
section
/-! DEFINITION. The decoder (R85 to R91) and its inverse, the encoder (R99), both from the opcode map of R95, and the
bytes of a word. The numeric opcode and funct values are those of R95, which the spec takes from general knowledge. -/

namespace Sys2Proof

/-! ### Fields (R81, R82, R83) -/

/-- Bits 31:26. -/
def fieldOpcode (w : Word) : BitVec 6 := w.extractLsb' 26 6
/-- Bits 25:21, source1. -/
def fieldRs (w : Word) : Reg := w.extractLsb' 21 5
/-- Bits 20:16, source2, the secondary operand. -/
def fieldRt (w : Word) : Reg := w.extractLsb' 16 5
/-- Bits 15:11, the destination. -/
def fieldRd (w : Word) : Reg := w.extractLsb' 11 5
/-- Bits 10:6. -/
def fieldShamt (w : Word) : BitVec 5 := w.extractLsb' 6 5
/-- Bits 5:0. -/
def fieldFunct (w : Word) : BitVec 6 := w.extractLsb' 0 6
/-- Bits 15:0. -/
def fieldImm (w : Word) : BitVec 16 := w.extractLsb' 0 16
/-- Bits 25:0. -/
def fieldTarget (w : Word) : BitVec 26 := w.extractLsb' 0 26

/-- R format: `0 : rs : rt : rd : shamt : funct` (R81, R99). -/
def packR (rs rt rd : Reg) (shamt : BitVec 5) (funct : BitVec 6) : Word :=
  0#6 ++ rs ++ rt ++ rd ++ shamt ++ funct
/-- I format: `opcode : rs : rt : imm` (R82, R99). -/
def packI (opcode : BitVec 6) (rs rt : Reg) (imm : BitVec 16) : Word := opcode ++ rs ++ rt ++ imm
/-- J format: `opcode : target` (R83, R99). -/
def packJ (opcode : BitVec 6) (target : BitVec 26) : Word := opcode ++ target

/-! ### The opcode map (R95) -/

/-- The operand fields an R95 row may fix to zero (R88). -/
inductive FixedField where
  | rs | rt | rd | shamt
  deriving DecidableEq, Repr

/-- One row of R95: its opcode and funct, the fields it fixes, and the record it builds. -/
structure Row where
  mnemonic : String
  format : Format
  syntaxClass : SyntaxClass
  opcode : BitVec 6
  /-- The funct value of an R-format row; I and J rows have none. -/
  funct : Option (BitVec 6) := none
  /-- Fields that must be 0 under `STRICT_DECODE` (R88). -/
  zero : List FixedField := []
  /-- rd = 31 is required under either decode setting (`jalr`, R89). -/
  linkRd : Bool := false
  /-- The member of `OPTIONAL_OPS` that admits the row (R90); a core row has none. -/
  optional : Option OptionalOp := none
  build : Word → Instr

/-- Why a word decodes to `ILLEGAL` (R97), by name. -/
inductive Illegal where
  /-- No row has this primary opcode. -/
  | unassignedOpcode (opcode : BitVec 6)
  /-- Opcode 0, and no row has this funct. -/
  | unassignedFunct (funct : BitVec 6)
  /-- An optional instruction that is not in `OPTIONAL_OPS` (R90). -/
  | notAdmitted (op : OptionalOp)
  /-- A field the row fixes to 0 is not 0, under `STRICT_DECODE` (R88). -/
  | fixedFieldNotZero
  /-- `jalr` with rd other than 31 (R89). -/
  | linkNotRa
  /-- Fewer than four bytes: no word at all. -/
  | truncated
  deriving DecidableEq, Repr

/-- R format: the ALU rows (R161 to R170). -/
def rowsAlu : List Row := [
  { mnemonic := "add", format := .r, syntaxClass := .arithLog, opcode := 0x00#6, funct := some 0x20#6, zero := [.shamt], build := fun w => .add (fieldRd w) (fieldRs w) (fieldRt w) },
  { mnemonic := "sub", format := .r, syntaxClass := .arithLog, opcode := 0x00#6, funct := some 0x22#6, zero := [.shamt], build := fun w => .sub (fieldRd w) (fieldRs w) (fieldRt w) },
  { mnemonic := "and", format := .r, syntaxClass := .arithLog, opcode := 0x00#6, funct := some 0x24#6, zero := [.shamt], build := fun w => .and (fieldRd w) (fieldRs w) (fieldRt w) },
  { mnemonic := "or", format := .r, syntaxClass := .arithLog, opcode := 0x00#6, funct := some 0x25#6, zero := [.shamt], build := fun w => .or (fieldRd w) (fieldRs w) (fieldRt w) },
  { mnemonic := "nor", format := .r, syntaxClass := .arithLog, opcode := 0x00#6, funct := some 0x27#6, zero := [.shamt], build := fun w => .nor (fieldRd w) (fieldRs w) (fieldRt w) },
  { mnemonic := "xor", format := .r, syntaxClass := .arithLog, opcode := 0x00#6, funct := some 0x26#6, zero := [.shamt], build := fun w => .xor (fieldRd w) (fieldRs w) (fieldRt w) },
  { mnemonic := "sll", format := .r, syntaxClass := .shift, opcode := 0x00#6, funct := some 0x00#6, zero := [.rs], build := fun w => .sll (fieldRd w) (fieldRt w) (fieldShamt w) },
  { mnemonic := "srl", format := .r, syntaxClass := .shift, opcode := 0x00#6, funct := some 0x02#6, zero := [.rs], build := fun w => .srl (fieldRd w) (fieldRt w) (fieldShamt w) },
  { mnemonic := "sra", format := .r, syntaxClass := .shift, opcode := 0x00#6, funct := some 0x03#6, zero := [.rs], build := fun w => .sra (fieldRd w) (fieldRt w) (fieldShamt w) },
  { mnemonic := "slt", format := .r, syntaxClass := .arithLog, opcode := 0x00#6, funct := some 0x2A#6, zero := [.shamt], build := fun w => .slt (fieldRd w) (fieldRs w) (fieldRt w) }]

/-- R format: jumps through a register (R181, R182) and `syscall` (R210; its bits 25:6 are ignored, R113). -/
def rowsJumpReg : List Row := [
  { mnemonic := "jr", format := .r, syntaxClass := .jumpR, opcode := 0x00#6, funct := some 0x08#6, zero := [.rt, .rd, .shamt], build := fun w => .jr (fieldRs w) },
  { mnemonic := "jalr", format := .r, syntaxClass := .jumpR, opcode := 0x00#6, funct := some 0x09#6, zero := [.rt, .shamt], linkRd := true, build := fun w => .jalr (fieldRs w) },
  { mnemonic := "syscall", format := .r, syntaxClass := .trap, opcode := 0x00#6, funct := some 0x0C#6, build := fun _ => .syscall }]

/-- R format: HI/LO moves, multiply and divide (R191 to R198). -/
def rowsHiLo : List Row := [
  { mnemonic := "mfhi", format := .r, syntaxClass := .moveFrom, opcode := 0x00#6, funct := some 0x10#6, zero := [.rs, .rt, .shamt], build := fun w => .mfhi (fieldRd w) },
  { mnemonic := "mflo", format := .r, syntaxClass := .moveFrom, opcode := 0x00#6, funct := some 0x12#6, zero := [.rs, .rt, .shamt], build := fun w => .mflo (fieldRd w) },
  { mnemonic := "mthi", format := .r, syntaxClass := .moveTo, opcode := 0x00#6, funct := some 0x11#6, zero := [.rt, .rd, .shamt], build := fun w => .mthi (fieldRs w) },
  { mnemonic := "mtlo", format := .r, syntaxClass := .moveTo, opcode := 0x00#6, funct := some 0x13#6, zero := [.rt, .rd, .shamt], build := fun w => .mtlo (fieldRs w) },
  { mnemonic := "mult", format := .r, syntaxClass := .divMult, opcode := 0x00#6, funct := some 0x18#6, zero := [.rd, .shamt], build := fun w => .mult (fieldRs w) (fieldRt w) },
  { mnemonic := "multu", format := .r, syntaxClass := .divMult, opcode := 0x00#6, funct := some 0x19#6, zero := [.rd, .shamt], build := fun w => .multu (fieldRs w) (fieldRt w) },
  { mnemonic := "div", format := .r, syntaxClass := .divMult, opcode := 0x00#6, funct := some 0x1A#6, zero := [.rd, .shamt], build := fun w => .div (fieldRs w) (fieldRt w) },
  { mnemonic := "divu", format := .r, syntaxClass := .divMult, opcode := 0x00#6, funct := some 0x1B#6, zero := [.rd, .shamt], build := fun w => .divu (fieldRs w) (fieldRt w) }]

/-- I format: ALU rows and `lui` (R221 to R225), branches (R241, R242). -/
def rowsImm : List Row := [
  { mnemonic := "addi", format := .i, syntaxClass := .arithLogI, opcode := 0x08#6, build := fun w => .addi (fieldRt w) (fieldRs w) (fieldImm w) },
  { mnemonic := "andi", format := .i, syntaxClass := .arithLogI, opcode := 0x0C#6, build := fun w => .andi (fieldRt w) (fieldRs w) (fieldImm w) },
  { mnemonic := "ori", format := .i, syntaxClass := .arithLogI, opcode := 0x0D#6, build := fun w => .ori (fieldRt w) (fieldRs w) (fieldImm w) },
  { mnemonic := "xori", format := .i, syntaxClass := .arithLogI, opcode := 0x0E#6, build := fun w => .xori (fieldRt w) (fieldRs w) (fieldImm w) },
  { mnemonic := "lui", format := .i, syntaxClass := .loadI, opcode := 0x0F#6, zero := [.rs], build := fun w => .lui (fieldRt w) (fieldImm w) },
  { mnemonic := "beq", format := .i, syntaxClass := .branch, opcode := 0x04#6, build := fun w => .beq (fieldRs w) (fieldRt w) (fieldImm w) },
  { mnemonic := "bne", format := .i, syntaxClass := .branch, opcode := 0x05#6, build := fun w => .bne (fieldRs w) (fieldRt w) (fieldImm w) }]

/-- I format: loads and stores (R251 to R256). J format: jumps (R271, R272). -/
def rowsMem : List Row := [
  { mnemonic := "lb", format := .i, syntaxClass := .loadStore, opcode := 0x20#6, build := fun w => .lb (fieldRt w) (fieldRs w) (fieldImm w) },
  { mnemonic := "lh", format := .i, syntaxClass := .loadStore, opcode := 0x21#6, build := fun w => .lh (fieldRt w) (fieldRs w) (fieldImm w) },
  { mnemonic := "lw", format := .i, syntaxClass := .loadStore, opcode := 0x23#6, build := fun w => .lw (fieldRt w) (fieldRs w) (fieldImm w) },
  { mnemonic := "sb", format := .i, syntaxClass := .loadStore, opcode := 0x28#6, build := fun w => .sb (fieldRt w) (fieldRs w) (fieldImm w) },
  { mnemonic := "sh", format := .i, syntaxClass := .loadStore, opcode := 0x29#6, build := fun w => .sh (fieldRt w) (fieldRs w) (fieldImm w) },
  { mnemonic := "sw", format := .i, syntaxClass := .loadStore, opcode := 0x2B#6, build := fun w => .sw (fieldRt w) (fieldRs w) (fieldImm w) },
  { mnemonic := "j", format := .j, syntaxClass := .jump, opcode := 0x02#6, build := fun w => .j (fieldTarget w) },
  { mnemonic := "jal", format := .j, syntaxClass := .jump, opcode := 0x03#6, build := fun w => .jal (fieldTarget w) }]

/-- The optional rows (R281 to R291). -/
def rowsOptional : List Row := [
  { mnemonic := "addu", format := .r, syntaxClass := .arithLog, opcode := 0x00#6, funct := some 0x21#6, zero := [.shamt], optional := some .addu, build := fun w => .addu (fieldRd w) (fieldRs w) (fieldRt w) },
  { mnemonic := "subu", format := .r, syntaxClass := .arithLog, opcode := 0x00#6, funct := some 0x23#6, zero := [.shamt], optional := some .subu, build := fun w => .subu (fieldRd w) (fieldRs w) (fieldRt w) },
  { mnemonic := "sltu", format := .r, syntaxClass := .arithLog, opcode := 0x00#6, funct := some 0x2B#6, zero := [.shamt], optional := some .sltu, build := fun w => .sltu (fieldRd w) (fieldRs w) (fieldRt w) },
  { mnemonic := "sllv", format := .r, syntaxClass := .shiftV, opcode := 0x00#6, funct := some 0x04#6, zero := [.shamt], optional := some .sllv, build := fun w => .sllv (fieldRd w) (fieldRt w) (fieldRs w) },
  { mnemonic := "srlv", format := .r, syntaxClass := .shiftV, opcode := 0x00#6, funct := some 0x06#6, zero := [.shamt], optional := some .srlv, build := fun w => .srlv (fieldRd w) (fieldRt w) (fieldRs w) },
  { mnemonic := "srav", format := .r, syntaxClass := .shiftV, opcode := 0x00#6, funct := some 0x07#6, zero := [.shamt], optional := some .srav, build := fun w => .srav (fieldRd w) (fieldRt w) (fieldRs w) },
  { mnemonic := "addiu", format := .i, syntaxClass := .arithLogI, opcode := 0x09#6, optional := some .addiu, build := fun w => .addiu (fieldRt w) (fieldRs w) (fieldImm w) },
  { mnemonic := "slti", format := .i, syntaxClass := .arithLogI, opcode := 0x0A#6, optional := some .slti, build := fun w => .slti (fieldRt w) (fieldRs w) (fieldImm w) },
  { mnemonic := "sltiu", format := .i, syntaxClass := .arithLogI, opcode := 0x0B#6, optional := some .sltiu, build := fun w => .sltiu (fieldRt w) (fieldRs w) (fieldImm w) },
  { mnemonic := "lbu", format := .i, syntaxClass := .loadStore, opcode := 0x24#6, optional := some .lbu, build := fun w => .lbu (fieldRt w) (fieldRs w) (fieldImm w) },
  { mnemonic := "lhu", format := .i, syntaxClass := .loadStore, opcode := 0x25#6, optional := some .lhu, build := fun w => .lhu (fieldRt w) (fieldRs w) (fieldImm w) }]

/-- The opcode map (R95): core rows, then optional rows. -/
def opcodeTable : List Row :=
  rowsAlu ++ rowsJumpReg ++ rowsHiLo ++ rowsImm ++ rowsMem ++ rowsOptional

/-! ### The decoder (R84 to R91) -/

/-- The value of a field that a row may fix. -/
def FixedField.value (w : Word) : FixedField → BitVec 5
  | .rs => fieldRs w
  | .rt => fieldRt w
  | .rd => fieldRd w
  | .shamt => fieldShamt w

/-- The primary opcode selects the row; if it is zero, the funct does (R84). -/
def Row.keyed (w : Word) (r : Row) : Bool :=
  fieldOpcode w == r.opcode && (match r.funct with | none => true | some f => fieldFunct w == f)

/-- The row an opcode and funct select, if any. -/
def findRow (w : Word) : Option Row := opcodeTable.find? (Row.keyed w)

/-- An optional row decodes only if `OPTIONAL_OPS` holds it (R90). -/
def Row.admitted (c : Config) (r : Row) : Bool :=
  match r.optional with
  | none => true
  | some op => c.admits op

/-- Under strict decoding every field the row fixes to 0 is 0; otherwise those fields are ignored (R88). -/
def Row.zeroFieldsOk (c : Config) (w : Word) (r : Row) : Bool :=
  !c.strictDecode || r.zero.all fun f => f.value w == 0#5

/-- `jalr` requires rd = 31 whatever `STRICT_DECODE` says (R89). -/
def Row.linkOk (w : Word) (r : Row) : Bool := !r.linkRd || fieldRd w == Reg.ra

/-- What a selected row makes of the word: its instruction, or the reason the word is `ILLEGAL` (R88 to R91). -/
def Row.decode (c : Config) (w : Word) (r : Row) : Except Illegal Instr :=
  match r.optional, r.admitted c with
  | some op, false => .error (.notAdmitted op)
  | _, _ =>
    if r.linkOk w then
      if r.zeroFieldsOk c w then .ok (r.build w) else .error .fixedFieldNotZero
    else .error .linkNotRa

/-- The decoder: total on 32-bit words, answering an instruction or `ILLEGAL` with its reason (R85, R91). -/
def decode (c : Config) (w : Word) : Except Illegal Instr :=
  match findRow w with
  | some r => r.decode c w
  | none =>
    if fieldOpcode w = 0#6 then .error (.unassignedFunct (fieldFunct w))
    else .error (.unassignedOpcode (fieldOpcode w))

/-! ### Bytes of a word -/

/-- Four bytes as a word, the first being bits 31:24 (R61).
DESIGN CHOICE for words in memory, safe (notes/assumptions/4.md): no instruction can observe the order. -/
def wordOfBytes (b0 b1 b2 b3 : Byte) : Word := b0 ++ b1 ++ b2 ++ b3

/-- Bits 31:24, the byte at the word's lowest address. -/
def byte0 (w : Word) : Byte := w.extractLsb' 24 8
/-- Bits 23:16. -/
def byte1 (w : Word) : Byte := w.extractLsb' 16 8
/-- Bits 15:8. -/
def byte2 (w : Word) : Byte := w.extractLsb' 8 8
/-- Bits 7:0. -/
def byte3 (w : Word) : Byte := w.extractLsb' 0 8

/-- A word as the four bytes memory holds, lowest address first. -/
def bytesOfWord (w : Word) : List Byte := [byte0 w, byte1 w, byte2 w, byte3 w]

/-- The decoder on bytes: the instruction of the first four, and the bytes after it (R80). -/
def decodeBytes (c : Config) : List Byte → Except Illegal (Instr × List Byte)
  | b0 :: b1 :: b2 :: b3 :: rest => (decode c (wordOfBytes b0 b1 b2 b3)).map fun i => (i, rest)
  | _ => .error .truncated

/-- The parameters with the optional instruction of a word's own row admitted; unchanged for the word of a core row, of no
row, or of a row already admitted. The host asks about every row, and the default set admits the core rows alone.
DESIGN CHOICE, safe (notes/assumptions/2.md): no step uses it. -/
def Config.admitting (c : Config) (w : Word) : Config :=
  match (findRow w).bind Row.optional with
  | none => c
  | some op => if c.admits op then c else { c with optionalOps := op :: c.optionalOps }

/-- The instruction the decoder reads from a table row's word, laid out in memory's byte order, under the parameters
of State.reset with an optional row admitted. Every instruction is 32 bits; a shorter row's missing bits are 0. -/
def decodeTableWord (nbits w : Nat) : Option Instr :=
  if nbits ≤ 32 then
    let word : Word := BitVec.ofNat 32 (w % 2 ^ nbits)
    match decodeBytes (Config.reference.admitting word) (bytesOfWord word) with
    | .ok (i, _) => some i
    | .error _ => none
  else none

/-! ### The encoder (R99) -/

/-- The word of an instruction: its fields in the positions of R81 to R83, its opcode and funct from R95, and 0 in the
fields it does not use (rd = 31 for `jalr`). -/
def encode : Instr → Word
  | .add rd rs rt => packR rs rt rd 0#5 0x20#6
  | .sub rd rs rt => packR rs rt rd 0#5 0x22#6
  | .and rd rs rt => packR rs rt rd 0#5 0x24#6
  | .or rd rs rt => packR rs rt rd 0#5 0x25#6
  | .nor rd rs rt => packR rs rt rd 0#5 0x27#6
  | .xor rd rs rt => packR rs rt rd 0#5 0x26#6
  | .sll rd rt shamt => packR 0#5 rt rd shamt 0x00#6
  | .srl rd rt shamt => packR 0#5 rt rd shamt 0x02#6
  | .sra rd rt shamt => packR 0#5 rt rd shamt 0x03#6
  | .slt rd rs rt => packR rs rt rd 0#5 0x2A#6
  | .jr rs => packR rs 0#5 0#5 0#5 0x08#6
  | .jalr rs => packR rs 0#5 Reg.ra 0#5 0x09#6
  | .mfhi rd => packR 0#5 0#5 rd 0#5 0x10#6
  | .mflo rd => packR 0#5 0#5 rd 0#5 0x12#6
  | .mthi rs => packR rs 0#5 0#5 0#5 0x11#6
  | .mtlo rs => packR rs 0#5 0#5 0#5 0x13#6
  | .mult rs rt => packR rs rt 0#5 0#5 0x18#6
  | .multu rs rt => packR rs rt 0#5 0#5 0x19#6
  | .div rs rt => packR rs rt 0#5 0#5 0x1A#6
  | .divu rs rt => packR rs rt 0#5 0#5 0x1B#6
  | .syscall => packR 0#5 0#5 0#5 0#5 0x0C#6
  | .addi rt rs imm => packI 0x08#6 rs rt imm
  | .andi rt rs imm => packI 0x0C#6 rs rt imm
  | .ori rt rs imm => packI 0x0D#6 rs rt imm
  | .xori rt rs imm => packI 0x0E#6 rs rt imm
  | .lui rt imm => packI 0x0F#6 0#5 rt imm
  | .beq rs rt imm => packI 0x04#6 rs rt imm
  | .bne rs rt imm => packI 0x05#6 rs rt imm
  | .lb rt rs imm => packI 0x20#6 rs rt imm
  | .lh rt rs imm => packI 0x21#6 rs rt imm
  | .lw rt rs imm => packI 0x23#6 rs rt imm
  | .sb rt rs imm => packI 0x28#6 rs rt imm
  | .sh rt rs imm => packI 0x29#6 rs rt imm
  | .sw rt rs imm => packI 0x2B#6 rs rt imm
  | .j target => packJ 0x02#6 target
  | .jal target => packJ 0x03#6 target
  | .addu rd rs rt => packR rs rt rd 0#5 0x21#6
  | .subu rd rs rt => packR rs rt rd 0#5 0x23#6
  | .sltu rd rs rt => packR rs rt rd 0#5 0x2B#6
  | .sllv rd rt rs => packR rs rt rd 0#5 0x04#6
  | .srlv rd rt rs => packR rs rt rd 0#5 0x06#6
  | .srav rd rt rs => packR rs rt rd 0#5 0x07#6
  | .addiu rt rs imm => packI 0x09#6 rs rt imm
  | .slti rt rs imm => packI 0x0A#6 rs rt imm
  | .sltiu rt rs imm => packI 0x0B#6 rs rt imm
  | .lbu rt rs imm => packI 0x24#6 rs rt imm
  | .lhu rt rs imm => packI 0x25#6 rs rt imm

/-- The bytes of an instruction, as memory holds them. -/
def encodeBytes (i : Instr) : List Byte := bytesOfWord (encode i)

/-! ### The Instruction record (R34, R86, R87) -/

/-- The decoded record of an instruction: unused fields are zero (R86), and the id of an R-format operation is its
funct value (R87). -/
def Instr.record : Instr → Record
  | .add rd rs rt => { format := some .r, id := 0x20#6, mnemonic := "add", syntaxClass := .arithLog, rd := rd, rs := rs, rt := rt }
  | .sub rd rs rt => { format := some .r, id := 0x22#6, mnemonic := "sub", syntaxClass := .arithLog, rd := rd, rs := rs, rt := rt }
  | .and rd rs rt => { format := some .r, id := 0x24#6, mnemonic := "and", syntaxClass := .arithLog, rd := rd, rs := rs, rt := rt }
  | .or rd rs rt => { format := some .r, id := 0x25#6, mnemonic := "or", syntaxClass := .arithLog, rd := rd, rs := rs, rt := rt }
  | .nor rd rs rt => { format := some .r, id := 0x27#6, mnemonic := "nor", syntaxClass := .arithLog, rd := rd, rs := rs, rt := rt }
  | .xor rd rs rt => { format := some .r, id := 0x26#6, mnemonic := "xor", syntaxClass := .arithLog, rd := rd, rs := rs, rt := rt }
  | .sll rd rt shamt => { format := some .r, id := 0x00#6, mnemonic := "sll", syntaxClass := .shift, rd := rd, rt := rt, shamt := shamt }
  | .srl rd rt shamt => { format := some .r, id := 0x02#6, mnemonic := "srl", syntaxClass := .shift, rd := rd, rt := rt, shamt := shamt }
  | .sra rd rt shamt => { format := some .r, id := 0x03#6, mnemonic := "sra", syntaxClass := .shift, rd := rd, rt := rt, shamt := shamt }
  | .slt rd rs rt => { format := some .r, id := 0x2A#6, mnemonic := "slt", syntaxClass := .arithLog, rd := rd, rs := rs, rt := rt }
  | .jr rs => { format := some .r, id := 0x08#6, mnemonic := "jr", syntaxClass := .jumpR, rs := rs }
  | .jalr rs => { format := some .r, id := 0x09#6, mnemonic := "jalr", syntaxClass := .jumpR, rs := rs, rd := Reg.ra }
  | .mfhi rd => { format := some .r, id := 0x10#6, mnemonic := "mfhi", syntaxClass := .moveFrom, rd := rd }
  | .mflo rd => { format := some .r, id := 0x12#6, mnemonic := "mflo", syntaxClass := .moveFrom, rd := rd }
  | .mthi rs => { format := some .r, id := 0x11#6, mnemonic := "mthi", syntaxClass := .moveTo, rs := rs }
  | .mtlo rs => { format := some .r, id := 0x13#6, mnemonic := "mtlo", syntaxClass := .moveTo, rs := rs }
  | .mult rs rt => { format := some .r, id := 0x18#6, mnemonic := "mult", syntaxClass := .divMult, rs := rs, rt := rt }
  | .multu rs rt => { format := some .r, id := 0x19#6, mnemonic := "multu", syntaxClass := .divMult, rs := rs, rt := rt }
  | .div rs rt => { format := some .r, id := 0x1A#6, mnemonic := "div", syntaxClass := .divMult, rs := rs, rt := rt }
  | .divu rs rt => { format := some .r, id := 0x1B#6, mnemonic := "divu", syntaxClass := .divMult, rs := rs, rt := rt }
  | .syscall => { format := some .r, id := 0x0C#6, mnemonic := "syscall", syntaxClass := .trap }
  | .addi rt rs imm => { format := some .i, id := 0x08#6, mnemonic := "addi", syntaxClass := .arithLogI, rt := rt, rs := rs, imm := imm }
  | .andi rt rs imm => { format := some .i, id := 0x0C#6, mnemonic := "andi", syntaxClass := .arithLogI, rt := rt, rs := rs, imm := imm }
  | .ori rt rs imm => { format := some .i, id := 0x0D#6, mnemonic := "ori", syntaxClass := .arithLogI, rt := rt, rs := rs, imm := imm }
  | .xori rt rs imm => { format := some .i, id := 0x0E#6, mnemonic := "xori", syntaxClass := .arithLogI, rt := rt, rs := rs, imm := imm }
  | .lui rt imm => { format := some .i, id := 0x0F#6, mnemonic := "lui", syntaxClass := .loadI, rt := rt, imm := imm }
  | .beq rs rt imm => { format := some .i, id := 0x04#6, mnemonic := "beq", syntaxClass := .branch, rs := rs, rt := rt, imm := imm }
  | .bne rs rt imm => { format := some .i, id := 0x05#6, mnemonic := "bne", syntaxClass := .branch, rs := rs, rt := rt, imm := imm }
  | .lb rt rs imm => { format := some .i, id := 0x20#6, mnemonic := "lb", syntaxClass := .loadStore, rt := rt, rs := rs, imm := imm }
  | .lh rt rs imm => { format := some .i, id := 0x21#6, mnemonic := "lh", syntaxClass := .loadStore, rt := rt, rs := rs, imm := imm }
  | .lw rt rs imm => { format := some .i, id := 0x23#6, mnemonic := "lw", syntaxClass := .loadStore, rt := rt, rs := rs, imm := imm }
  | .sb rt rs imm => { format := some .i, id := 0x28#6, mnemonic := "sb", syntaxClass := .loadStore, rt := rt, rs := rs, imm := imm }
  | .sh rt rs imm => { format := some .i, id := 0x29#6, mnemonic := "sh", syntaxClass := .loadStore, rt := rt, rs := rs, imm := imm }
  | .sw rt rs imm => { format := some .i, id := 0x2B#6, mnemonic := "sw", syntaxClass := .loadStore, rt := rt, rs := rs, imm := imm }
  | .j target => { format := some .j, id := 0x02#6, mnemonic := "j", syntaxClass := .jump, target := target }
  | .jal target => { format := some .j, id := 0x03#6, mnemonic := "jal", syntaxClass := .jump, target := target }
  | .addu rd rs rt => { format := some .r, id := 0x21#6, mnemonic := "addu", syntaxClass := .arithLog, rd := rd, rs := rs, rt := rt }
  | .subu rd rs rt => { format := some .r, id := 0x23#6, mnemonic := "subu", syntaxClass := .arithLog, rd := rd, rs := rs, rt := rt }
  | .sltu rd rs rt => { format := some .r, id := 0x2B#6, mnemonic := "sltu", syntaxClass := .arithLog, rd := rd, rs := rs, rt := rt }
  | .sllv rd rt rs => { format := some .r, id := 0x04#6, mnemonic := "sllv", syntaxClass := .shiftV, rd := rd, rt := rt, rs := rs }
  | .srlv rd rt rs => { format := some .r, id := 0x06#6, mnemonic := "srlv", syntaxClass := .shiftV, rd := rd, rt := rt, rs := rs }
  | .srav rd rt rs => { format := some .r, id := 0x07#6, mnemonic := "srav", syntaxClass := .shiftV, rd := rd, rt := rt, rs := rs }
  | .addiu rt rs imm => { format := some .i, id := 0x09#6, mnemonic := "addiu", syntaxClass := .arithLogI, rt := rt, rs := rs, imm := imm }
  | .slti rt rs imm => { format := some .i, id := 0x0A#6, mnemonic := "slti", syntaxClass := .arithLogI, rt := rt, rs := rs, imm := imm }
  | .sltiu rt rs imm => { format := some .i, id := 0x0B#6, mnemonic := "sltiu", syntaxClass := .arithLogI, rt := rt, rs := rs, imm := imm }
  | .lbu rt rs imm => { format := some .i, id := 0x24#6, mnemonic := "lbu", syntaxClass := .loadStore, rt := rt, rs := rs, imm := imm }
  | .lhu rt rs imm => { format := some .i, id := 0x25#6, mnemonic := "lhu", syntaxClass := .loadStore, rt := rt, rs := rs, imm := imm }

/-- The word a record packs to (R99), for a record of R, I or J format. -/
def Record.word (r : Record) : Option Word :=
  match r.format with
  | some .r => some (packR r.rs r.rt r.rd r.shamt r.id)
  | some .i => some (packI r.id r.rs r.rt r.imm)
  | some .j => some (packJ r.id r.target)
  | none => none

end Sys2Proof
end

