-- ==== Sys2Proof/Machine/State.lean ====
section
/-! DEFINITION. The state of the machine (R20 to R37): plain data, holding everything the spec gives the core, and its
value right after reset (R36, R340 to R345). -/

namespace Sys2Proof.Machine

/-- The spec's faults with the value each records (R310). A fault is not a trap: it ends the run (R311). In this model
a cycle that raises one answers a NEXT state that records it in `signals.error` and in the run status
(notes/assumptions/5.md); `Machine.Fault` is something else. -/
inductive CoreFault where
  /-- Execute: an instruction record of no format R, I or J (R313). -/
  | badFormat (record : Record)
  /-- Register write: a write to index 0 or to an index above 31 (R314, R137). -/
  | badReg (index : Nat)
  /-- Decode: a word that matches no admitted row (R312). -/
  | illegalInstruction (word : Word)
  /-- Memory stage: an effective address outside the array (R315). -/
  | memFault (address : Word)
  /-- Fetch: `pc` misaligned or below `TEXT_BASE` (R316). -/
  | fetchFault (pc : Word)
  /-- Execute: `div` or `divu` by zero (R317). -/
  | divByZero
  /-- Execute: `div` of 0x80000000 by 0xFFFFFFFF (R317). -/
  | divOverflow
  deriving DecidableEq, Repr

/-- The run status (R37). -/
inductive RunStatus where
  | running
  /-- `HALTED(END)`: the PC passed `LAST_ADDR`, or the image was empty (R345). -/
  | haltedEnd
  /-- `HALTED(EXIT, code)` for syscall 17, `HALTED(EXIT)` with no code for syscall 10 (R212). -/
  | haltedExit (code : Option Word)
  /-- `FAULTED(f)`. -/
  | faulted (f : CoreFault)
  deriving DecidableEq, Repr

/-- The control signals (R30). The field defaults are the cleared values (R31). -/
structure ControlSignals where
  branch : Bool := false
  jump : Bool := false
  memRead : Bool := false
  memWrite : Bool := false
  regWrite : Bool := false
  memToReg : Bool := false
  signExt : Bool := false
  regDst : Bool := false
  aluSrcImm : Bool := false
  widthMask : Word := 0#32
  syscallValid : Bool := false
  syscallNum : Word := 0#32
  /-- `OK` is `none`. -/
  error : Option CoreFault := none
  deriving DecidableEq, Repr

/-- Every signal cleared (R31). -/
def ControlSignals.cleared : ControlSignals := {}

/-- Memory: the bytes that differ from what an unlisted address reads as, by rising address. -/
abbrev Memory := List Host.Cell

/-- What an unlisted address reads as: memory is zeroed at reset (R340). -/
def Memory.unlisted : Byte := 0#8

/-- The canonical form: addresses strictly rise, and no entry equals what an unlisted address reads as. -/
abbrev Memory.wf (m : Memory) : Prop :=
  m.Pairwise (fun c d => c.1 < d.1) ∧ ∀ c ∈ m, c.2 ≠ Memory.unlisted

/-- The machine state. -/
structure State where
  /-- The parameters of R9. The model's own field; no step changes it (notes/assumptions/1.md). -/
  cfg : Config
  /-- `x[0]` to `x[31]` (R20). Read and written through `State.reg`, `State.commit` and `State.link`. -/
  regs : Vector Word 32
  /-- `HI`, entry 33 of the register file (R24, R25). -/
  hi : Word
  /-- `LO`, entry 34 of the register file (R24, R25). -/
  lo : Word
  /-- The address of the instruction being executed (R26). -/
  pc : Word
  /-- Entry 32 of the register file, the mirror of `pc` (R24, R141). -/
  pcMirror : Word
  /-- `LAST_ADDR`, the end-of-program marker (R27). -/
  lastAddr : Word
  /-- The control signals the last cycle left (R30); the next cycle clears them (R31). -/
  signals : ControlSignals
  /-- The address the last cycle's memory stage touched, reported to the host (R145). -/
  changedAddr : Option Word
  /-- The register the last cycle's register-write stage wrote or reported (R145). -/
  changedReg : Option Reg
  /-- The array of `N + M` words (R35), as bytes (notes/assumptions/4.md). -/
  mem : Memory
  /-- The run status (R37). -/
  status : RunStatus
  deriving DecidableEq, Repr

/-- Why a step cannot answer: the machine has stopped for good. Not the spec's faults, which are next states. -/
inductive Fault where
  /-- Raised by `step` alone, when the run has ended: no further cycle runs (R37). Safe: the spec gives such a state
  no next one. The status says how the run ended. -/
  | runEnded (status : RunStatus)
  /-- Raised by `step` alone: the fetch address passed the checks of R121 and yet holds no memory (R54), because
  `LAST_ADDR` lies outside the array. Safe: no state that meets `Safety.Invariant` raises it. -/
  | fetchOutsideArray (pc : Word)
  deriving DecidableEq, Repr

/-- Why something is refused. -/
inductive Refusal where
  /-- Raised by an arm of `exec` for an instruction that has no meaning. Safe. No arm raises it. -/
  | notModelled (mnemonic : String)
  /-- Raised by the image load alone: `IMAGE_TOO_LARGE`, more than N words; no cycle runs (R318, R343). Safe: it is
  the spec's own refusal. -/
  | imageTooLarge (count : Nat)
  deriving DecidableEq, Repr

/-- What a meaning, a step or a load answers. -/
abbrev Result := Host.Outcome State Fault Refusal

/-- The machine after reset and before an image is loaded, for given parameters (R340 to R342): memory and register
file zeroed, `x[29]` at `SP_INIT`, `pc` and its mirror at `TEXT_BASE`. `LAST_ADDR` and the run status are what R345
gives for an image of no words; DEDUCED, safe (notes/assumptions/7.md). -/
def State.cleared (c : Config) : State where
  cfg := c
  regs := (Vector.replicate 32 0#32).set 29 c.spInit
  hi := 0#32
  lo := 0#32
  pc := c.textBase
  pcMirror := c.textBase
  lastAddr := c.textBase - 4#32
  signals := ControlSignals.cleared
  changedAddr := none
  changedReg := none
  mem := []
  status := .haltedEnd

/-- The machine right after reset with nothing loaded, at the reference parameters. -/
def State.reset : State := State.cleared Config.reference

end Sys2Proof.Machine
end

