-- ==== Sys2Proof/Machine/Flags.lean ====
section
/-! DEFINITION. The per-cycle flags. The core has no status flags and no condition codes (R28); its only flags are the
control signals, and this file holds the row of R126 for each kind of instruction. Cells R126 leaves blank are 0. -/

namespace Sys2Proof.Machine

/-- The width masks of R56. -/
def byteMask : Word := 0x000000FF#32
/-- The halfword mask (R56). -/
def halfMask : Word := 0x0000FFFF#32
/-- The word mask (R56). -/
def wordMask : Word := 0xFFFFFFFF#32

namespace Signals

/-- R-format ALU and shifts, `mfhi` and `mflo`: the result goes to rd (R126). -/
def rResult : ControlSignals := { regWrite := true, regDst := true }
/-- `jr` (R126). -/
def jr : ControlSignals := { jump := true, regDst := true }
/-- `jalr` (R126). -/
def jalr : ControlSignals := { jump := true, regWrite := true, regDst := true }
/-- `mthi`, `mtlo`, `mult`, `multu`, `div`, `divu`: register write suppressed (R126). -/
def hiLo : ControlSignals := { regDst := true }
/-- `syscall`: the pending number is `x[2]` (R126, R210). -/
def syscall (num : Word) : ControlSignals := { regDst := true, syscallValid := true, syscallNum := num }
/-- I-format ALU and `lui`: the result goes to rt (R126). -/
def iResult : ControlSignals := { regWrite := true, signExt := true, aluSrcImm := true }
/-- `beq` and `bne`: `branch` is set when the branch is taken (R126). -/
def branch (taken : Bool) : ControlSignals := { branch := taken, signExt := true, aluSrcImm := true }
/-- Loads, with their width mask (R126). -/
def load (mask : Word) : ControlSignals :=
  { memRead := true, memToReg := true, signExt := true, aluSrcImm := true, widthMask := mask }
/-- Stores, with their width mask (R126). -/
def store (mask : Word) : ControlSignals :=
  { memWrite := true, signExt := true, aluSrcImm := true, widthMask := mask }
/-- `j` (R126). -/
def j : ControlSignals := { jump := true }
/-- `jal` (R126). -/
def jal : ControlSignals := { jump := true, regWrite := true }

end Signals

/-- The code of a fault (R310). -/
def CoreFault.code : CoreFault → Nat
  | .badFormat _ => 1
  | .badReg _ => 2
  | .illegalInstruction _ => 3
  | .memFault _ => 4
  | .fetchFault _ => 5
  | .divByZero => 6
  | .divOverflow => 7

/-- The code of the error signal: 0 is `OK` (R310). -/
def ControlSignals.errorCode (g : ControlSignals) : Nat :=
  match g.error with
  | none => 0
  | some f => f.code

end Sys2Proof.Machine
end

