-- ==== Sys2Proof/Machine/Operands.lean ====
section
/-! DEFINITION. Operand forms: extension of fields (R12, R93, R94), the operand snapshot (R33, R124), effective addresses
(R55) and branch and jump targets (R240, R270). -/

namespace Sys2Proof.Machine

/-- `sext_32(v)`: a 16-bit value sign-extended to 32 bits (R12). -/
def sext32 (v : BitVec 16) : Word := v.signExtend 32

/-- `simm`: every I-format immediate is sign-extended, `andi`, `ori` and `xori` included (R93, C6). -/
def simm (imm : BitVec 16) : Word := sext32 imm

/-- The read of a general register: `x[0]` reads zero (R21). -/
def State.reg (s : State) (r : Reg) : Word := if r = Reg.zero then 0#32 else s.regs[r.toNat]

/-- The per-cycle operand snapshot (R33). -/
structure RegisterValues where
  rsv : Word
  rtv : Word
  rdv : Word
  deriving DecidableEq, Repr

/-- The snapshot, read from the register file before execute; a field the format lacks is 0 in the record (R86, R124). -/
def State.snapshot (s : State) (rs rt rd : Reg) : RegisterValues := ⟨s.reg rs, s.reg rt, s.reg rd⟩

/-- The count of a variable shift: `rsv[4:0]` (R131, R284). -/
def variableCount (rsv : Word) : BitVec 5 := rsv.extractLsb' 0 5

/-- The address generator: `EA = rsv + sext_32(imm)`, modulo 2^32 (R55). -/
def effectiveAddress (rsv : Word) (imm : BitVec 16) : Word := rsv + simm imm

/-- The branch target `pc + 4 + (sext_32(imm) << 2)`, modulo 2^32 (R240). -/
def branchTarget (pc : Word) (imm : BitVec 16) : Word := pc + 4#32 + (simm imm <<< 2)

/-- The J target `zext_32(target) << 2`, an absolute address (R270). -/
def jumpTarget (target : BitVec 26) : Word := target.setWidth 32 <<< 2

/-- The link value: the address of the `jal` or `jalr` plus 4 (R127). -/
def linkValue (pc : Word) : Word := pc + 4#32

end Sys2Proof.Machine
end

