-- ==== Sys2Proof/Machine/Ops.lean ====
section
/-! DEFINITION. The named operations over memory, registers and the run status, and the stages of a cycle after execute
(R120): memory, register write, PC update, syscall halt check. Every meaning is built from these. -/

namespace Sys2Proof.Machine

/-! ### Bytes and words of memory -/

/-- The byte at an address. -/
def Memory.readByte : Memory → Nat → Byte
  | [], _ => Memory.unlisted
  | (a, b) :: rest, x => if a = x then b else Memory.readByte rest x

/-- The memory with one byte written, in canonical form: the value an unlisted address reads as removes the entry. -/
def Memory.writeByte : Memory → Nat → Byte → Memory
  | [], x, v => if v = Memory.unlisted then [] else [(x, v)]
  | (a, b) :: rest, x, v =>
    if x < a then (if v = Memory.unlisted then (a, b) :: rest else (x, v) :: (a, b) :: rest)
    else if x = a then (if v = Memory.unlisted then rest else (x, v) :: rest)
    else (a, b) :: Memory.writeByte rest x v

/-- The word whose first byte is at an address, that byte being bits 31:24 (notes/assumptions/4.md). -/
def Memory.readWord (m : Memory) (a : Nat) : Word :=
  wordOfBytes (m.readByte a) (m.readByte (a + 1)) (m.readByte (a + 2)) (m.readByte (a + 3))

/-- The memory with the four bytes of a word written. -/
def Memory.writeWord (m : Memory) (a : Nat) (w : Word) : Memory :=
  (((m.writeByte a (byte0 w)).writeByte (a + 1) (byte1 w)).writeByte (a + 2) (byte2 w)).writeByte (a + 3) (byte3 w)

/-! ### Addresses (R51, R52) -/

/-- One past the last valid byte address, `TEXT_BASE + 4*(N+M)`, as an exact integer: it may be 2^32
(notes/assumptions/13.md). -/
def arrayEnd (c : Config) : Nat := c.textBase.toNat + 4 * (c.instrCapacity + c.dataWords)

/-- The valid addresses (R51). -/
def inArray (c : Config) (addr : Word) : Bool :=
  decide (c.textBase.toNat ≤ addr.toNat) && decide (addr.toNat < arrayEnd c)

/-- `idx(addr) = (addr - TEXT_BASE) div 4`: the low two bits select nothing (R52, R64). -/
def wordIndex (c : Config) (addr : Word) : Nat := (addr.toNat - c.textBase.toNat) / 4

/-- The address of the first byte of word k, `TEXT_BASE + 4k` (R50). -/
def wordAddress (c : Config) (k : Nat) : Nat := c.textBase.toNat + 4 * k

/-- The address of the first byte of the word that an address names. -/
def wordBase (c : Config) (addr : Word) : Nat := wordAddress c (wordIndex c addr)

/-- `MemRead(addr, mask)`: the masked word, never sign-extended, no lane selected (R57). -/
def State.memRead (s : State) (addr mask : Word) : Except CoreFault Word :=
  if inArray s.cfg addr then .ok (s.mem.readWord (wordBase s.cfg addr) &&& mask) else .error (.memFault addr)

/-- `MemWrite(addr, mask, v)`: the whole word becomes `v & mask` (R58). -/
def State.memWrite (s : State) (addr mask v : Word) : Except CoreFault State :=
  if inArray s.cfg addr then .ok { s with mem := s.mem.writeWord (wordBase s.cfg addr) (v &&& mask) }
  else .error (.memFault addr)

/-! ### Registers -/

/-- `commit(i, v)` of R137: index 0 or above 31 is `BAD_REG` and writes nothing. -/
def State.commit (s : State) (i : Nat) (v : Word) : Except CoreFault State :=
  if h : i = 0 ∨ 31 < i then .error (.badReg i)
  else .ok { s with regs := s.regs.set i v, changedReg := some (BitVec.ofNat 5 i) }

/-- The link commit of `jal` and `jalr`: `x[31] <- pc + 4`, directly, in execute (R127). -/
def State.link (s : State) : State := { s with regs := s.regs.set 31 (linkValue s.pc) }

/-- The 35-entry register file as the host lists it: 32 is the mirror of `pc`, 33 HI, 34 LO (R24). -/
def State.fileEntry (s : State) (k : Nat) : Option Word :=
  if k < 32 then some (s.reg (BitVec.ofNat 5 k))
  else if k = 32 then some s.pcMirror
  else if k = 33 then some s.hi
  else if k = 34 then some s.lo
  else none

/-! ### Raising a fault (R310, R311)

This is all the core has of exceptions: nothing is saved, no mode changes, no handler runs, no vector is read. There is
no trap entry and no return from one (R323, R324). -/

/-- `raise F`: the fault is recorded in the error signal and in the run status; nothing else changes (R310, R311, R320). -/
def State.raise (s : State) (f : CoreFault) : State :=
  { s with signals := { s.signals with error := some f }, status := .faulted f }

/-- The start of a cycle: every signal takes its cleared value (R31, R123) and nothing is reported yet (R145). -/
def State.beginCycle (s : State) : State :=
  { s with signals := ControlSignals.cleared, changedAddr := none, changedReg := none }

/-! ### The stages of a cycle after execute (R120) -/

/-- The memory stage (R59): the state, and `readValue`. -/
def State.memoryStage (s : State) (result rtv : Word) : Except CoreFault (State × Word) :=
  if s.signals.memWrite then
    match s.memWrite result s.signals.widthMask rtv with
    | .error f => .error f
    | .ok t => .ok ({ t with changedAddr := some result }, result)
  else if s.signals.memRead then
    match s.memRead result s.signals.widthMask with
    | .error f => .error f
    | .ok v => .ok ({ s with changedAddr := some result }, v)
  else .ok ({ s with changedAddr := none }, result)

/-- The value offered to the register-write stage (R135). -/
def writeValue (g : ControlSignals) (readValue result : Word) : Word :=
  if g.memToReg && g.memRead then readValue else result

/-- The register-write control (R136). -/
def State.registerWrite (s : State) (rd rt : Reg) (value : Word) : Except CoreFault State :=
  if !(s.signals.regWrite || s.signals.memToReg) then .ok { s with changedReg := none }
  else if s.signals.memToReg && s.signals.memRead then s.commit rt.toNat value
  else if s.signals.jump && s.signals.regWrite then .ok { s with changedReg := some Reg.ra }
  else s.commit (if s.signals.regDst then rd else rt).toNat value

/-- The PC updater (R140) and the mirror (R141). -/
def State.updatePc (s : State) (result : Word) : State :=
  let pc := if s.signals.branch || s.signals.jump then result else s.pc + 4#32
  { s with pc := pc, pcMirror := pc }

/-- The syscall halt check: number 10 exits with no code, 17 with the code `x[4]` (R212). -/
def State.syscallHalt (s : State) : State :=
  if s.signals.syscallValid then
    if s.signals.syscallNum = 10#32 then { s with status := .haltedExit none }
    else if s.signals.syscallNum = 17#32 then { s with status := .haltedExit (some (s.reg Reg.a0)) }
    else s
  else s

/-- The state after execute in which the stages start: the signals execute set, and no report yet. -/
def State.executed (s : State) (g : ControlSignals) : State :=
  { s with signals := g, changedAddr := none, changedReg := none }

/-- The stages of a cycle from the execute error check on (R120, R147). `s` is the state execute left (after a link
commit or HI/LO write), `g` the signals it set, `result` its result, `rtv` the snapshot value of rt. A fault ends the
cycle: execute error check (R129), memory (R132), register write (R138). -/
def State.finishCycle (s : State) (rd rt : Reg) (rtv : Word) (g : ControlSignals) (result : Word) : State :=
  let e := s.executed g
  match g.error with
  | some f => e.raise f
  | none =>
    match e.memoryStage result rtv with
    | .error f => e.raise f
    | .ok (m, readValue) =>
      match m.registerWrite rd rt (writeValue m.signals readValue result) with
      | .error f => m.raise f
      | .ok t => (t.updatePc result).syscallHalt

/-! ### The syscall signal to the host (R211, R213) -/

/-- What the contract of R211 asks of the host. What the host prints is outside the core (R6). -/
inductive HostRequest where
  | printSigned (arg : Word)
  | printFloating (arg : Word)
  | printScientific (arg : Word)
  | printString (address : Word)
  | exit
  | printCharacter (arg : Word)
  | exitWithCode (code : Word)
  | printHex (arg : Word)
  | unsupported (num : Word)
  deriving DecidableEq, Repr

/-- The request a cycle ends with, read off `syscall_valid`, `syscall_num` and `syscall_arg = x[4]` (R211, R213). -/
def State.hostRequest (s : State) : Option HostRequest :=
  if s.signals.syscallValid then
    let arg := s.reg Reg.a0
    if s.signals.syscallNum = 1#32 then some (.printSigned arg)
    else if s.signals.syscallNum = 2#32 then some (.printFloating arg)
    else if s.signals.syscallNum = 3#32 then some (.printScientific arg)
    else if s.signals.syscallNum = 4#32 then some (.printString arg)
    else if s.signals.syscallNum = 10#32 then some .exit
    else if s.signals.syscallNum = 11#32 then some (.printCharacter arg)
    else if s.signals.syscallNum = 17#32 then some (.exitWithCode arg)
    else if s.signals.syscallNum = 34#32 then some (.printHex arg)
    else some (.unsupported s.signals.syscallNum)
  else none

/-! ### The image load (R343, R345) -/

/-- The image words from word k on, stored at `TEXT_BASE + 4k` and up. -/
def Memory.storeImage (c : Config) : Memory → Nat → List Word → Memory
  | m, _, [] => m
  | m, k, w :: rest => Memory.storeImage c (m.writeWord (wordAddress c k) w) (k + 1) rest

/-- The image load (R343): more than N words are refused; an empty image is `HALTED(END)` (R345); otherwise the words
go to the low end of the instruction segment, `LAST_ADDR` names the last, and the run starts (R344). -/
def State.load (s : State) (image : List Word) : Result :=
  if s.cfg.instrCapacity < image.length then .refused (.imageTooLarge image.length)
  else if image.length = 0 then .next { s with lastAddr := s.cfg.textBase - 4#32, status := .haltedEnd }
  else .next { s with
    mem := s.mem.storeImage s.cfg 0 image
    lastAddr := s.cfg.textBase + BitVec.ofNat 32 (4 * (image.length - 1))
    status := .running }

/-- Reset, then image load, for given parameters (R340 to R346). -/
def boot (c : Config) (image : List Word) : Result := (State.cleared c).load image

end Sys2Proof.Machine
end

