-- ==== Sys2Proof/Machine/Alu.lean ====
section
/-! DEFINITION. The ALU unit (R131), and the shared forms of the ALU instructions: three registers, shift by shamt, shift
by register, register with immediate. Each instruction's own meaning is in its family's file. -/

namespace Sys2Proof.Machine

/-- The operations of the ALU unit (R131). -/
inductive AluOp where
  | add | sub | and | or | nor | xor | sll | srl | sra | slt | sltu | lui
  deriving DecidableEq, Repr

/-- A compare writes a general register: 32-bit 1 or 0 (R28, R170). -/
def boolWord (p : Bool) : Word := if p then 1#32 else 0#32

/-- Set-less-than signed: `sint(a) < sint(b)` (R170). -/
def setLess (a b : Word) : Word := boolWord (decide (a.toInt < b.toInt))

/-- Set-less-than unsigned: `uint(a) < uint(b)` (R283). -/
def setLessUnsigned (a b : Word) : Word := boolWord (decide (a.toNat < b.toNat))

/-- The ALU: one 32-bit value from operand A, operand B, a 5-bit shift count and the operation (R131). Sums and
differences wrap (R160); it has no flags output. Shifts read A and the count; `lui` reads B. -/
def alu (op : AluOp) (a b : Word) (count : BitVec 5) : Word :=
  match op with
  | .add => a + b
  | .sub => a - b
  | .and => a &&& b
  | .or => a ||| b
  | .nor => ~~~(a ||| b)
  | .xor => a ^^^ b
  | .sll => a <<< count.toNat
  | .srl => a >>> count.toNat
  | .sra => a.sshiftRight count.toNat
  | .slt => setLess a b
  | .sltu => setLessUnsigned a b
  | .lui => b <<< 16

/-- A cycle whose execute stage changes nothing but the signals. -/
def plainCycle (s : State) (rd rt : Reg) (rtv : Word) (g : ControlSignals) (result : Word) : Result :=
  .next (s.finishCycle rd rt rtv g result)

/-- Three registers: the result of `rsv` and `rtv` goes to rd (R160). -/
def aluThree (op : AluOp) (rd rs rt : Reg) (s : State) : Result :=
  let v := s.snapshot rs rt rd
  plainCycle s rd rt v.rtv Signals.rResult (alu op v.rsv v.rtv 0#5)

/-- `rtv` shifted by shamt goes to rd (R167 to R169); rs is 0 in the record. -/
def aluShift (op : AluOp) (rd rt : Reg) (shamt : BitVec 5) (s : State) : Result :=
  let v := s.snapshot 0#5 rt rd
  plainCycle s rd rt v.rtv Signals.rResult (alu op v.rtv v.rtv shamt)

/-- `rtv` shifted by `rsv[4:0]` goes to rd (R284 to R286). -/
def aluShiftVariable (op : AluOp) (rd rt rs : Reg) (s : State) : Result :=
  let v := s.snapshot rs rt rd
  plainCycle s rd rt v.rtv Signals.rResult (alu op v.rtv v.rtv (variableCount v.rsv))

/-- `rsv` and the sign-extended immediate; the result goes to rt (R220). -/
def aluImmediate (op : AluOp) (rt rs : Reg) (imm : BitVec 16) (s : State) : Result :=
  let v := s.snapshot rs rt 0#5
  plainCycle s 0#5 rt v.rtv Signals.iResult (alu op v.rsv (simm imm) 0#5)

end Sys2Proof.Machine
end

