-- ==== Sys2Proof/Machine/HiLo.lean ====
section
/-! DEFINITION. HI/LO moves, multiply and divide (43_r_hilo.md). There is no interlock and no hazard (R190, R353). -/

namespace Sys2Proof.Machine

/-- A cycle whose execute stage writes HI and LO, directly; register write is suppressed and the result is 0 (R128, R130, R190). -/
def writeHiLo (rs rt : Reg) (hi lo : Word) (s : State) : Result :=
  let v := s.snapshot rs rt 0#5
  plainCycle { s with hi := hi, lo := lo } 0#5 rt v.rtv Signals.hiLo 0#32

/-- A cycle whose execute stage raises a fault before it writes anything (R129, R317). -/
def faultInExecute (rt : Reg) (f : CoreFault) (s : State) : Result :=
  plainCycle s 0#5 rt (s.reg rt) { Signals.hiLo with error := some f } 0#32

/-- `mfhi`: `x[rd] <- HI` (R191). -/
def execMfhi (rd : Reg) (s : State) : Result :=
  let v := s.snapshot 0#5 0#5 rd
  plainCycle s rd 0#5 v.rtv Signals.rResult s.hi

/-- `mflo`: `x[rd] <- LO` (R192). -/
def execMflo (rd : Reg) (s : State) : Result :=
  let v := s.snapshot 0#5 0#5 rd
  plainCycle s rd 0#5 v.rtv Signals.rResult s.lo

/-- `mthi`: `HI <- rsv`, LO unchanged (R193). -/
def execMthi (rs : Reg) (s : State) : Result :=
  writeHiLo rs 0#5 (s.reg rs) s.lo s

/-- `mtlo`: `LO <- rsv`, HI unchanged (R194). -/
def execMtlo (rs : Reg) (s : State) : Result :=
  writeHiLo rs 0#5 s.hi (s.reg rs) s

/-- The exact signed product as 64-bit two's complement (R195). -/
def productSigned (a b : Word) : BitVec 64 := BitVec.ofInt 64 (a.toInt * b.toInt)

/-- The exact unsigned product, below 2^64 (R196). -/
def productUnsigned (a b : Word) : BitVec 64 := BitVec.ofNat 64 (a.toNat * b.toNat)

/-- `p[63:32]`, the half that goes to HI (R195). -/
def highHalf (p : BitVec 64) : Word := p.extractLsb' 32 32

/-- `p[31:0]`, the half that goes to LO (R195). -/
def lowHalf (p : BitVec 64) : Word := p.extractLsb' 0 32

/-- `mult`: the exact signed product, high half to HI and low half to LO (R195, D32). -/
def execMult (rs rt : Reg) (s : State) : Result :=
  let p := productSigned (s.reg rs) (s.reg rt)
  writeHiLo rs rt (highHalf p) (lowHalf p) s

/-- `multu`: the exact unsigned product (R196, D32). -/
def execMultu (rs rt : Reg) (s : State) : Result :=
  let p := productUnsigned (s.reg rs) (s.reg rt)
  writeHiLo rs rt (highHalf p) (lowHalf p) s

/-- The signed quotient, truncated toward zero (R197, R11). -/
def quotientSigned (a b : Word) : Word := BitVec.ofInt 32 (a.toInt.tdiv b.toInt)

/-- The signed remainder `a - q*b`, with the sign of the dividend (R197). -/
def remainderSigned (a b : Word) : Word := BitVec.ofInt 32 (a.toInt - a.toInt.tdiv b.toInt * b.toInt)

/-- The unsigned quotient (R198). -/
def quotientUnsigned (a b : Word) : Word := BitVec.ofNat 32 (a.toNat / b.toNat)

/-- The unsigned remainder (R198). -/
def remainderUnsigned (a b : Word) : Word := BitVec.ofNat 32 (a.toNat % b.toNat)

/-- `div`: `DIV_BY_ZERO`, then `DIV_OVERFLOW`, before any write; else LO is the quotient and HI the remainder (R197, D8). -/
def execDiv (rs rt : Reg) (s : State) : Result :=
  let a := s.reg rs
  let b := s.reg rt
  if b = 0#32 then faultInExecute rt .divByZero s
  else if a = 0x80000000#32 ∧ b = 0xFFFFFFFF#32 then faultInExecute rt .divOverflow s
  else writeHiLo rs rt (remainderSigned a b) (quotientSigned a b) s

/-- `divu`: `DIV_BY_ZERO` before any write; else LO is the quotient and HI the remainder (R198, D8). -/
def execDivu (rs rt : Reg) (s : State) : Result :=
  let a := s.reg rs
  let b := s.reg rt
  if b = 0#32 then faultInExecute rt .divByZero s
  else writeHiLo rs rt (remainderUnsigned a b) (quotientUnsigned a b) s

/-! ### The long multiplier of R199

The source multiplies by 16-bit half-words. The normative requirement is only that the result equal the exact product;
these are R199's algorithms, for the statement that they do. -/

/-- `umul64(a, b)` of R199, as (HI, LO). -/
def umul64 (a b : Word) : Word × Word :=
  let a1 := a.toNat / 2 ^ 16
  let a0 := a.toNat % 2 ^ 16
  let b1 := b.toNat / 2 ^ 16
  let b0 := b.toNat % 2 ^ 16
  let p00 := a0 * b0
  let p01 := a0 * b1
  let p10 := a1 * b0
  let p11 := a1 * b1
  let mid := p01 + p10 + p00 / 2 ^ 16
  let lo := BitVec.ofNat 16 mid ++ BitVec.ofNat 16 p00
  let hi := BitVec.ofNat 32 (p11 + mid / 2 ^ 16)
  (hi, lo)

/-- `smul64(a, b)` of R199: the unsigned product, corrected. -/
def smul64 (a b : Word) : Word × Word :=
  let p := umul64 a b
  let h1 := if a.msb then p.1 - b else p.1
  let h2 := if b.msb then h1 - a else h1
  (h2, p.2)

end Sys2Proof.Machine
end

