-- ==== Sys2Proof/Machine/IAlu.lean ====
section
/-! DEFINITION. I-format ALU instructions and `lui` (45_i_alu.md). Every immediate is sign-extended (R93, R220, C6); rt = 0 raises `BAD_REG`. -/

namespace Sys2Proof.Machine

/-- `addi`: `x[rt] <- (rsv + sext_32(imm)) mod 2^32` (R221, D7). -/
def execAddi (rt rs : Reg) (imm : BitVec 16) (s : State) : Result :=
  aluImmediate .add rt rs imm s

/-- `andi`: `x[rt] <- rsv & sext_32(imm)` (R222). -/
def execAndi (rt rs : Reg) (imm : BitVec 16) (s : State) : Result :=
  aluImmediate .and rt rs imm s

/-- `ori`: `x[rt] <- rsv | sext_32(imm)` (R223). -/
def execOri (rt rs : Reg) (imm : BitVec 16) (s : State) : Result :=
  aluImmediate .or rt rs imm s

/-- `xori`: `x[rt] <- rsv ^ sext_32(imm)` (R224). -/
def execXori (rt rs : Reg) (imm : BitVec 16) (s : State) : Result :=
  aluImmediate .xor rt rs imm s

/-- `lui`: `x[rt] <- (sext_32(imm) << 16)[31:0]` (R225). -/
def execLui (rt : Reg) (imm : BitVec 16) (s : State) : Result :=
  aluImmediate .lui rt 0#5 imm s

end Sys2Proof.Machine
end

