-- ==== Sys2Proof/Machine/Jump.lean ====
section
/-! DEFINITION. Jumps (42_r_jump_register.md, 48_j_jump.md) and conditional branches (46_i_branch.md). There is no delay slot (R143), and the PC updater checks no target (R142). -/

namespace Sys2Proof.Machine

/-- `jr`: `pc <- rsv`, unchanged (R180, R181). -/
def execJr (rs : Reg) (s : State) : Result :=
  let v := s.snapshot rs 0#5 0#5
  plainCycle s 0#5 0#5 v.rtv Signals.jr v.rsv

/-- `jalr`: the target is the snapshot of rs, then execute links `x[31] <- pc + 4` (R182, R127). -/
def execJalr (rs : Reg) (s : State) : Result :=
  let v := s.snapshot rs 0#5 Reg.ra
  plainCycle s.link Reg.ra 0#5 v.rtv Signals.jalr v.rsv

/-- `j`: `pc <- zext_32(target) << 2` (R270, R271). -/
def execJ (target : BitVec 26) (s : State) : Result :=
  plainCycle s 0#5 0#5 (s.reg 0#5) Signals.j (jumpTarget target)

/-- `jal`: as `j`, and execute links `x[31] <- pc + 4` (R272, R127). -/
def execJal (target : BitVec 26) (s : State) : Result :=
  plainCycle s.link 0#5 0#5 (s.reg 0#5) Signals.jal (jumpTarget target)

/-- A conditional branch: taken, the result is the target; not taken, no signal and result 0 (R240, R241, R130). -/
def branchCycle (taken : Bool) (rt : Reg) (rtv : Word) (imm : BitVec 16) (s : State) : Result :=
  plainCycle s 0#5 rt rtv (Signals.branch taken) (if taken then branchTarget s.pc imm else 0#32)

/-- `beq`: taken when `rsv == rtv` (R241). -/
def execBeq (rs rt : Reg) (imm : BitVec 16) (s : State) : Result :=
  let v := s.snapshot rs rt 0#5
  branchCycle (v.rsv == v.rtv) rt v.rtv imm s

/-- `bne`: taken when `rsv != rtv` (R242). -/
def execBne (rs rt : Reg) (imm : BitVec 16) (s : State) : Result :=
  let v := s.snapshot rs rt 0#5
  branchCycle (v.rsv != v.rtv) rt v.rtv imm s

end Sys2Proof.Machine
end

