-- ==== Sys2Proof/Machine/LoadStore.lean ====
section
/-! DEFINITION. Loads and stores (47_i_loadstore.md). The low two address bits are ignored (R64); loaded values are zero-extended (R57, D10);
narrow stores clear the rest of the word (R58, D11). -/

namespace Sys2Proof.Machine

/-- A load: execute answers the effective address, the memory stage reads the masked word, and register write commits it
to rt (R250). `MEM_FAULT` comes before `BAD_REG` (R319). -/
def loadCycle (mask : Word) (rt rs : Reg) (imm : BitVec 16) (s : State) : Result :=
  let v := s.snapshot rs rt 0#5
  plainCycle s 0#5 rt v.rtv (Signals.load mask) (effectiveAddress v.rsv imm)

/-- A store: the memory stage writes the masked `rtv` over the whole word (R250, R58, R60). -/
def storeCycle (mask : Word) (rt rs : Reg) (imm : BitVec 16) (s : State) : Result :=
  let v := s.snapshot rs rt 0#5
  plainCycle s 0#5 rt v.rtv (Signals.store mask) (effectiveAddress v.rsv imm)

/-- `lb`: the low byte of the addressed word (R251). -/
def execLb (rt rs : Reg) (imm : BitVec 16) (s : State) : Result :=
  loadCycle byteMask rt rs imm s

/-- `lh`: the low halfword of the addressed word (R252). -/
def execLh (rt rs : Reg) (imm : BitVec 16) (s : State) : Result :=
  loadCycle halfMask rt rs imm s

/-- `lw`: the addressed word (R253). -/
def execLw (rt rs : Reg) (imm : BitVec 16) (s : State) : Result :=
  loadCycle wordMask rt rs imm s

/-- `sb`: the word becomes `rtv & 0xff` (R254). -/
def execSb (rt rs : Reg) (imm : BitVec 16) (s : State) : Result :=
  storeCycle byteMask rt rs imm s

/-- `sh`: the word becomes `rtv & 0xffff` (R255). -/
def execSh (rt rs : Reg) (imm : BitVec 16) (s : State) : Result :=
  storeCycle halfMask rt rs imm s

/-- `sw`: the word becomes `rtv` (R256). -/
def execSw (rt rs : Reg) (imm : BitVec 16) (s : State) : Result :=
  storeCycle wordMask rt rs imm s

end Sys2Proof.Machine
end

