-- ==== Sys2Proof/Machine/Optional.lean ====
section
/-! DEFINITION. The optional instructions (49_optional.md). The decoder admits each by `OPTIONAL_OPS` (R90); executed, each has the meaning of its rule. -/

namespace Sys2Proof.Machine

/-- `addu`: the same value as `add` (R281). -/
def execAddu (rd rs rt : Reg) (s : State) : Result :=
  aluThree .add rd rs rt s

/-- `subu`: the same value as `sub` (R282). -/
def execSubu (rd rs rt : Reg) (s : State) : Result :=
  aluThree .sub rd rs rt s

/-- `sltu`: `x[rd] <- (rsv <u rtv) ? 1 : 0` (R283). -/
def execSltu (rd rs rt : Reg) (s : State) : Result :=
  aluThree .sltu rd rs rt s

/-- `sllv`: `x[rd] <- (rtv << rsv[4:0])[31:0]` (R284). -/
def execSllv (rd rt rs : Reg) (s : State) : Result :=
  aluShiftVariable .sll rd rt rs s

/-- `srlv`: `x[rd] <- rtv >>u rsv[4:0]` (R285). -/
def execSrlv (rd rt rs : Reg) (s : State) : Result :=
  aluShiftVariable .srl rd rt rs s

/-- `srav`: `x[rd] <- rtv >>s rsv[4:0]` (R286). -/
def execSrav (rd rt rs : Reg) (s : State) : Result :=
  aluShiftVariable .sra rd rt rs s

/-- `addiu`: the same value as `addi`; the immediate is sign-extended despite the name (R287). -/
def execAddiu (rt rs : Reg) (imm : BitVec 16) (s : State) : Result :=
  aluImmediate .add rt rs imm s

/-- `slti`: `x[rt] <- (sint(rsv) < sint(sext_32(imm))) ? 1 : 0` (R288). -/
def execSlti (rt rs : Reg) (imm : BitVec 16) (s : State) : Result :=
  aluImmediate .slt rt rs imm s

/-- `sltiu`: `x[rt] <- (rsv <u sext_32(imm)) ? 1 : 0` (R289). -/
def execSltiu (rt rs : Reg) (imm : BitVec 16) (s : State) : Result :=
  aluImmediate .sltu rt rs imm s

/-- `lbu`: identical to `lb`, since no load sign-extends (R290). -/
def execLbu (rt rs : Reg) (imm : BitVec 16) (s : State) : Result :=
  loadCycle byteMask rt rs imm s

/-- `lhu`: identical to `lh` (R291). -/
def execLhu (rt rs : Reg) (imm : BitVec 16) (s : State) : Result :=
  loadCycle halfMask rt rs imm s

end Sys2Proof.Machine
end

