-- ==== Sys2Proof/Machine/RAlu.lean ====
section
/-! DEFINITION. R-format ALU instructions (41_r_alu.md). Each raises `BAD_REG` at register write when rd = 0 (R160). -/

namespace Sys2Proof.Machine

/-- `add`: `x[rd] <- (rsv + rtv) mod 2^32`; overflow wraps, with no fault (R161, D7). -/
def execAdd (rd rs rt : Reg) (s : State) : Result :=
  aluThree .add rd rs rt s

/-- `sub`: `x[rd] <- (rsv - rtv) mod 2^32` (R162). -/
def execSub (rd rs rt : Reg) (s : State) : Result :=
  aluThree .sub rd rs rt s

/-- `and`: `x[rd] <- rsv & rtv` (R163). -/
def execAnd (rd rs rt : Reg) (s : State) : Result :=
  aluThree .and rd rs rt s

/-- `or`: `x[rd] <- rsv | rtv` (R164). -/
def execOr (rd rs rt : Reg) (s : State) : Result :=
  aluThree .or rd rs rt s

/-- `nor`: `x[rd] <- ~(rsv | rtv)` (R165). -/
def execNor (rd rs rt : Reg) (s : State) : Result :=
  aluThree .nor rd rs rt s

/-- `xor`: `x[rd] <- rsv ^ rtv` (R166). -/
def execXor (rd rs rt : Reg) (s : State) : Result :=
  aluThree .xor rd rs rt s

/-- `sll`: `x[rd] <- (rtv << shamt)[31:0]` (R167). The all-zero word is this with rd = 0: it faults (R98). -/
def execSll (rd rt : Reg) (shamt : BitVec 5) (s : State) : Result :=
  aluShift .sll rd rt shamt s

/-- `srl`: `x[rd] <- rtv >>u shamt` (R168). -/
def execSrl (rd rt : Reg) (shamt : BitVec 5) (s : State) : Result :=
  aluShift .srl rd rt shamt s

/-- `sra`: `x[rd] <- rtv >>s shamt` (R169). -/
def execSra (rd rt : Reg) (shamt : BitVec 5) (s : State) : Result :=
  aluShift .sra rd rt shamt s

/-- `slt`: `x[rd] <- (sint(rsv) < sint(rtv)) ? 1 : 0` (R170). -/
def execSlt (rd rs rt : Reg) (s : State) : Result :=
  aluThree .slt rd rs rt s

end Sys2Proof.Machine
end

