-- ==== Sys2Proof/Machine/Syscall.lean ====
section
/-! DEFINITION. `syscall` (44_r_syscall.md). It raises the numbered signal; the host does the I/O and never writes core state (D31). -/

namespace Sys2Proof.Machine

/-- `syscall`: the signal holds the full `x[2]`; no register, memory, HI or LO is written; `pc` advances, and then the halt check
of R212 runs, in the shared stages (R210). -/
def execSyscall (s : State) : Result :=
  plainCycle s 0#5 0#5 (s.reg 0#5) (Signals.syscall (s.reg Reg.v0)) 0#32

end Sys2Proof.Machine
end

