-- ==== Sys2Proof/Machine/Fetch.lean ====
section
/-! DEFINITION. Fetch and decode of one cycle (R121, R122), the run of a decoded record (R125, R313), and the word a host
places where the next fetch reads it. -/

namespace Sys2Proof.Machine

/-- What the fetch stage finds. -/
inductive Fetched where
  /-- `pc >u LAST_ADDR`: the end of the program, no fetch. -/
  | ended
  /-- `FETCH_FAULT`. -/
  | faulted (f : CoreFault)
  /-- The address passed the checks and holds no memory (notes/assumptions/11.md). -/
  | noMemory
  | word (w : Word)
  deriving DecidableEq, Repr

/-- A fetch address must be at or above `TEXT_BASE` and a multiple of 4 past it (R65, R121). -/
def fetchable (c : Config) (pc : Word) : Bool :=
  decide (c.textBase.toNat ≤ pc.toNat) && decide ((pc.toNat - c.textBase.toNat) % 4 = 0)

/-- The fetch stage (R121). -/
def State.fetch (s : State) : Fetched :=
  if s.lastAddr.toNat < s.pc.toNat then .ended
  else if !fetchable s.cfg s.pc then .faulted (.fetchFault s.pc)
  else if !inArray s.cfg s.pc then .noMemory
  else .word (s.mem.readWord (wordBase s.cfg s.pc))

/-- The end of the program: `HALTED(END)`, with the signals cleared and nothing else changed (R121, R31). -/
def State.endOfProgram (s : State) : State := { s.beginCycle with status := .haltedEnd }

/-- Decode and execute of a fetched word: `ILLEGAL` raises `ILLEGAL_INSTRUCTION` with the word and changes nothing else
(R122, R312). -/
def State.runWord (s : State) (w : Word) : Result :=
  match decode s.cfg w with
  | .error _ => .next (s.beginCycle.raise (.illegalInstruction w))
  | .ok i => exec i s

/-- One cycle of a running machine (R120, R147). -/
def State.cycle (s : State) : Result :=
  match s.fetch with
  | .ended => .next s.endOfProgram
  | .faulted f => .next (s.beginCycle.raise f)
  | .noMemory => .fault (.fetchOutsideArray s.pc)
  | .word w => s.runWord w

/-- The run of an instruction record however it was built: a record of no format raises `BAD_FORMAT` and changes nothing
else (R125, R313); any other runs as the word it packs to. A step never runs a record of no format. -/
def execRecord (r : Record) (s : State) : Result :=
  match r.word with
  | none => .next (s.beginCycle.raise (.badFormat r))
  | some w => s.runWord w

/-- Where the next fetch can read: `pc`, if it names a word of the array, else the base, where a load puts word 0. -/
def State.fetchSlot (s : State) : Word :=
  if fetchable s.cfg s.pc && inArray s.cfg s.pc then s.pc else s.cfg.textBase

/-- `LAST_ADDR` after a word is placed at an address: kept where it names a word of the array at or past that address. -/
def State.lastAddrWith (s : State) (slot : Word) : Word :=
  if decide (slot.toNat ≤ s.lastAddr.toNat) && inArray s.cfg s.lastAddr then s.lastAddr else slot

/-- The state with a word placed where the next step fetches, and the run started. From a state with no image this is
the load of the one-word image (notes/assumptions/8.md). -/
def State.placeWord (s : State) (w : Word) : State :=
  let slot := s.fetchSlot
  { s with
    mem := s.mem.writeWord (wordBase s.cfg slot) w
    pc := slot
    pcMirror := slot
    lastAddr := s.lastAddrWith slot
    status := .running }

/-- The state whose parameters admit a word's own optional row (notes/assumptions/2.md). -/
def State.admitting (s : State) (w : Word) : State := { s with cfg := s.cfg.admitting w }

end Sys2Proof.Machine
end

