-- ==== Sys2Proof/Machine/Step.lean ====
section
/-! DEFINITION. One step: one cycle while the run status is `RUNNING` (R120, R147). -/

namespace Sys2Proof.Machine

/-- One step. Once the status leaves `RUNNING` no further cycle runs (R37). -/
def step (s : State) : Host.Outcome State Fault Refusal :=
  if s.status = .running then s.cycle else .fault (.runEnded s.status)

/-- The state with a table row's word stored where `step` fetches next, and an optional row admitted, so that the very
next step runs it (notes/assumptions/2.md and 8.md). -/
def State.withFetchWord (s : State) (nbits w : Nat) : State :=
  let word : Word := BitVec.ofNat 32 (w % 2 ^ nbits)
  (s.placeWord word).admitting word

end Sys2Proof.Machine
end

