-- ==== Sys2Proof/Safety.lean ====
section
/-! DEFINITION. What a good state and a good run are, in the terms the statements use. -/

namespace Sys2Proof.Safety

open Sys2Proof.Machine

/-- The run failed: a faulted state is a failure of the run, never a normal end (R321). -/
def Failed (s : State) : Prop := ∃ f, s.status = .faulted f

/-- The run ended as R330 names it, without a fault: `HALTED(END)` or `HALTED(EXIT)`. -/
def EndedWell (s : State) : Prop := s.status = .haltedEnd ∨ ∃ code, s.status = .haltedExit code

/-- `LAST_ADDR` names a word of the instruction segment (R27, R343). -/
def LastAddrInSegment (s : State) : Prop :=
  s.cfg.textBase.toNat ≤ s.lastAddr.toNat ∧
  s.lastAddr.toNat < s.cfg.textBase.toNat + 4 * s.cfg.instrCapacity ∧
  (s.lastAddr.toNat - s.cfg.textBase.toNat) % 4 = 0

/-- What every reachable state satisfies. -/
structure Invariant (s : State) : Prop where
  /-- The parameters meet the constraints of R9. -/
  config : s.cfg.WellFormed
  /-- Register 0 holds zero (R21). -/
  zero : s.regs[0] = 0#32
  /-- Pseudo-register 32 mirrors `pc` (R141). -/
  mirror : s.pcMirror = s.pc
  /-- Memory is in its canonical form. -/
  memory : s.mem.wf
  /-- No byte outside the array is listed (R51, R54). -/
  inside : ∀ c ∈ s.mem, s.cfg.textBase.toNat ≤ c.1 ∧ c.1 < arrayEnd s.cfg
  /-- `LAST_ADDR` names a word of the instruction segment, unless the image was empty and no cycle runs (R27, R345). -/
  last : LastAddrInSegment s ∨ s.status = .haltedEnd
  /-- The error signal and the run status record the same fault (R310). -/
  error : ∀ f, s.signals.error = some f ↔ s.status = .faulted f

/-- The states a run reaches, from the load of an image into a reset machine with well-formed parameters. -/
inductive Reachable : State → Prop where
  | loaded (c : Config) (image : List Word) (s : State) (hc : c.WellFormed) (h : boot c image = .next s) : Reachable s
  | step (s t : State) (hs : Reachable s) (h : Machine.step s = .next t) : Reachable t

/-- No state the machine reaches from `s` in `k` steps has failed. -/
def SafeFor (k : Nat) (s : State) : Prop :=
  ∀ n, n ≤ k → ∀ t, core.run n s = .next t → ¬ Failed t

end Sys2Proof.Safety
end

