-- ==== Sys2Proof/Certificates/Slice0/Obligations.lean ====
section
/-! DEFINITION. The statements for the provers. The first part is their vocabulary: whole after-states written out field
by field (so that each says the result AND what stays), the encoding clause, and lists of instructions. -/

namespace Sys2Proof.Effect

open Sys2Proof.Machine

/-! ### The control signals of R126, written out -/

/-- Row of R126 for R-format results. -/
def toRd : ControlSignals := { regWrite := true, regDst := true }
/-- Row of R126 for I-format results. -/
def toRt : ControlSignals := { regWrite := true, signExt := true, aluSrcImm := true }
/-- Row of R126 for HI/LO writers. -/
def quiet : ControlSignals := { regDst := true }
/-- Row of R126 for branches. -/
def branching (taken : Bool) : ControlSignals := { branch := taken, signExt := true, aluSrcImm := true }
/-- Row of R126 for loads. -/
def loading (mask : Word) : ControlSignals :=
  { memRead := true, memToReg := true, signExt := true, aluSrcImm := true, widthMask := mask }
/-- Row of R126 for stores. -/
def storing (mask : Word) : ControlSignals :=
  { memWrite := true, signExt := true, aluSrcImm := true, widthMask := mask }

/-! ### After-states -/

/-- Register d (not 0) takes v, `pc` and its mirror advance by 4; nothing else of the machine changes. -/
def wrote (s : State) (g : ControlSignals) (address : Option Word) (d : Reg) (v : Word) : State :=
  { s with regs := s.regs.set d.toNat v d.isLt, pc := s.pc + 4#32, pcMirror := s.pc + 4#32, signals := g,
           changedAddr := address, changedReg := some d }

/-- HI and LO take values, `pc` and its mirror advance by 4; nothing else changes. -/
def wroteHiLo (s : State) (hi lo : Word) : State :=
  { s with hi := hi, lo := lo, pc := s.pc + 4#32, pcMirror := s.pc + 4#32, signals := quiet, changedAddr := none,
           changedReg := none }

/-- Control goes to an address; nothing else changes. -/
def wentTo (s : State) (g : ControlSignals) (target : Word) : State :=
  { s with pc := target, pcMirror := target, signals := g, changedAddr := none, changedReg := none }

/-- Control goes to an address, and `x[31]` takes the address of the instruction plus 4; nothing else changes. -/
def linkedTo (s : State) (g : ControlSignals) (target : Word) : State :=
  { s with regs := s.regs.set 31 (s.pc + 4#32), pc := target, pcMirror := target, signals := g, changedAddr := none,
           changedReg := some 31#5 }

/-- The word an address names takes v, `pc` and its mirror advance by 4; nothing else changes. -/
def stored (s : State) (mask address v : Word) : State :=
  { s with mem := s.mem.writeWord (wordBase s.cfg address) v, pc := s.pc + 4#32, pcMirror := s.pc + 4#32,
           signals := storing mask, changedAddr := some address, changedReg := none }

/-- The run has faulted: the fault stands in the error signal and in the run status; `pc`, registers, HI, LO and memory
are as they were. -/
def faulted (s : State) (g : ControlSignals) (address : Option Word) (f : CoreFault) : State :=
  { s with signals := { g with error := some f }, changedAddr := address, changedReg := none, status := .faulted f }

/-- The execution answers this next state. -/
def Runs (i : Instr) (s t : State) : Prop := exec i s = .next t

/-- An instruction with destination rd: it writes `v` to rd, or raises `BAD_REG` when rd is 0. -/
def ResultToRd (i : Instr) (rd : Reg) (v : State → Word) : Prop :=
  ∀ s, (rd ≠ 0#5 → Runs i s (wrote s toRd none rd (v s))) ∧
       (rd = 0#5 → Runs i s (faulted s toRd none (.badReg 0)))

/-- An instruction with destination rt: it writes `v` to rt, or raises `BAD_REG` when rt is 0. -/
def ResultToRt (i : Instr) (rt : Reg) (v : State → Word) : Prop :=
  ∀ s, (rt ≠ 0#5 → Runs i s (wrote s toRt none rt (v s))) ∧
       (rt = 0#5 → Runs i s (faulted s toRt none (.badReg 0)))

/-- A load of the masked word at `x[rs] + sext_32(imm)`: outside the array `MEM_FAULT`, whatever rt is; inside, rt takes
the masked word, or the load raises `BAD_REG` when rt is 0. -/
def LoadOf (i : Instr) (mask : Word) (rt rs : Reg) (imm : BitVec 16) : Prop :=
  ∀ s, let ea := s.reg rs + imm.signExtend 32
    (inArray s.cfg ea = false → Runs i s (faulted s (loading mask) none (.memFault ea))) ∧
    (inArray s.cfg ea = true → rt ≠ 0#5 →
      Runs i s (wrote s (loading mask) (some ea) rt (s.mem.readWord (wordBase s.cfg ea) &&& mask))) ∧
    (inArray s.cfg ea = true → rt = 0#5 → Runs i s (faulted s (loading mask) (some ea) (.badReg 0)))

/-- A store of the masked `x[rt]` at `x[rs] + sext_32(imm)`: the whole word becomes the masked value; outside the array
`MEM_FAULT`, memory unchanged. -/
def StoreOf (i : Instr) (mask : Word) (rt rs : Reg) (imm : BitVec 16) : Prop :=
  ∀ s, let ea := s.reg rs + imm.signExtend 32
    (inArray s.cfg ea = true → Runs i s (stored s mask ea (s.reg rt &&& mask))) ∧
    (inArray s.cfg ea = false → Runs i s (faulted s (storing mask) none (.memFault ea)))

/-! ### Encodings, written out field by field -/

/-- A core instruction and its word: each decodes and encodes to the other, under every setting of the parameters. -/
def Encoded (w : Word) (i : Instr) : Prop := encode i = w ∧ ∀ c : Config, decode c w = .ok i

/-- An optional instruction and its word, which decodes exactly when `OPTIONAL_OPS` holds the mnemonic. -/
def EncodedOptional (op : OptionalOp) (w : Word) (i : Instr) : Prop :=
  encode i = w ∧ ∀ c : Config, decode c w = if c.admits op then .ok i else .error (.notAdmitted op)

/-- The R-format word of given fields. -/
def wordR (rs rt rd : Reg) (shamt : BitVec 5) (funct : BitVec 6) : Word := 0#6 ++ rs ++ rt ++ rd ++ shamt ++ funct
/-- The I-format word of given fields. -/
def wordI (opcode : BitVec 6) (rs rt : Reg) (imm : BitVec 16) : Word := opcode ++ rs ++ rt ++ imm
/-- The J-format word of given fields. -/
def wordJ (opcode : BitVec 6) (target : BitVec 26) : Word := opcode ++ target

/-- One row of the opcode table in mask form (R88, R95): mnemonic, match, strict mask, loose mask, and the optional
instruction that admits it. -/
structure MaskRow where
  mnemonic : String
  pattern : Word
  strict : Word
  loose : Word
  optional : Option OptionalOp := none

/-- The rows of spec/opcode_table.json, core R format. -/
def maskRowsR : List MaskRow := [
  { mnemonic := "add", pattern := 0x00000020#32, strict := 0xFC0007FF#32, loose := 0xFC00003F#32 },
  { mnemonic := "sub", pattern := 0x00000022#32, strict := 0xFC0007FF#32, loose := 0xFC00003F#32 },
  { mnemonic := "and", pattern := 0x00000024#32, strict := 0xFC0007FF#32, loose := 0xFC00003F#32 },
  { mnemonic := "or", pattern := 0x00000025#32, strict := 0xFC0007FF#32, loose := 0xFC00003F#32 },
  { mnemonic := "nor", pattern := 0x00000027#32, strict := 0xFC0007FF#32, loose := 0xFC00003F#32 },
  { mnemonic := "xor", pattern := 0x00000026#32, strict := 0xFC0007FF#32, loose := 0xFC00003F#32 },
  { mnemonic := "sll", pattern := 0x00000000#32, strict := 0xFFE0003F#32, loose := 0xFC00003F#32 },
  { mnemonic := "srl", pattern := 0x00000002#32, strict := 0xFFE0003F#32, loose := 0xFC00003F#32 },
  { mnemonic := "sra", pattern := 0x00000003#32, strict := 0xFFE0003F#32, loose := 0xFC00003F#32 },
  { mnemonic := "slt", pattern := 0x0000002A#32, strict := 0xFC0007FF#32, loose := 0xFC00003F#32 },
  { mnemonic := "jr", pattern := 0x00000008#32, strict := 0xFC1FFFFF#32, loose := 0xFC00003F#32 },
  { mnemonic := "jalr", pattern := 0x0000F809#32, strict := 0xFC1FFFFF#32, loose := 0xFC00F83F#32 },
  { mnemonic := "mfhi", pattern := 0x00000010#32, strict := 0xFFFF07FF#32, loose := 0xFC00003F#32 },
  { mnemonic := "mflo", pattern := 0x00000012#32, strict := 0xFFFF07FF#32, loose := 0xFC00003F#32 },
  { mnemonic := "mthi", pattern := 0x00000011#32, strict := 0xFC1FFFFF#32, loose := 0xFC00003F#32 },
  { mnemonic := "mtlo", pattern := 0x00000013#32, strict := 0xFC1FFFFF#32, loose := 0xFC00003F#32 },
  { mnemonic := "mult", pattern := 0x00000018#32, strict := 0xFC00FFFF#32, loose := 0xFC00003F#32 },
  { mnemonic := "multu", pattern := 0x00000019#32, strict := 0xFC00FFFF#32, loose := 0xFC00003F#32 },
  { mnemonic := "div", pattern := 0x0000001A#32, strict := 0xFC00FFFF#32, loose := 0xFC00003F#32 },
  { mnemonic := "divu", pattern := 0x0000001B#32, strict := 0xFC00FFFF#32, loose := 0xFC00003F#32 },
  { mnemonic := "syscall", pattern := 0x0000000C#32, strict := 0xFC00003F#32, loose := 0xFC00003F#32 }]

/-- The rows of spec/opcode_table.json, core I and J format. -/
def maskRowsIJ : List MaskRow := [
  { mnemonic := "addi", pattern := 0x20000000#32, strict := 0xFC000000#32, loose := 0xFC000000#32 },
  { mnemonic := "andi", pattern := 0x30000000#32, strict := 0xFC000000#32, loose := 0xFC000000#32 },
  { mnemonic := "ori", pattern := 0x34000000#32, strict := 0xFC000000#32, loose := 0xFC000000#32 },
  { mnemonic := "xori", pattern := 0x38000000#32, strict := 0xFC000000#32, loose := 0xFC000000#32 },
  { mnemonic := "lui", pattern := 0x3C000000#32, strict := 0xFFE00000#32, loose := 0xFC000000#32 },
  { mnemonic := "beq", pattern := 0x10000000#32, strict := 0xFC000000#32, loose := 0xFC000000#32 },
  { mnemonic := "bne", pattern := 0x14000000#32, strict := 0xFC000000#32, loose := 0xFC000000#32 },
  { mnemonic := "lb", pattern := 0x80000000#32, strict := 0xFC000000#32, loose := 0xFC000000#32 },
  { mnemonic := "lh", pattern := 0x84000000#32, strict := 0xFC000000#32, loose := 0xFC000000#32 },
  { mnemonic := "lw", pattern := 0x8C000000#32, strict := 0xFC000000#32, loose := 0xFC000000#32 },
  { mnemonic := "sb", pattern := 0xA0000000#32, strict := 0xFC000000#32, loose := 0xFC000000#32 },
  { mnemonic := "sh", pattern := 0xA4000000#32, strict := 0xFC000000#32, loose := 0xFC000000#32 },
  { mnemonic := "sw", pattern := 0xAC000000#32, strict := 0xFC000000#32, loose := 0xFC000000#32 },
  { mnemonic := "j", pattern := 0x08000000#32, strict := 0xFC000000#32, loose := 0xFC000000#32 },
  { mnemonic := "jal", pattern := 0x0C000000#32, strict := 0xFC000000#32, loose := 0xFC000000#32 }]

/-- The optional rows of spec/opcode_table.json. -/
def maskRowsOptional : List MaskRow := [
  { mnemonic := "addu", pattern := 0x00000021#32, strict := 0xFC0007FF#32, loose := 0xFC00003F#32, optional := some .addu },
  { mnemonic := "subu", pattern := 0x00000023#32, strict := 0xFC0007FF#32, loose := 0xFC00003F#32, optional := some .subu },
  { mnemonic := "sltu", pattern := 0x0000002B#32, strict := 0xFC0007FF#32, loose := 0xFC00003F#32, optional := some .sltu },
  { mnemonic := "sllv", pattern := 0x00000004#32, strict := 0xFC0007FF#32, loose := 0xFC00003F#32, optional := some .sllv },
  { mnemonic := "srlv", pattern := 0x00000006#32, strict := 0xFC0007FF#32, loose := 0xFC00003F#32, optional := some .srlv },
  { mnemonic := "srav", pattern := 0x00000007#32, strict := 0xFC0007FF#32, loose := 0xFC00003F#32, optional := some .srav },
  { mnemonic := "addiu", pattern := 0x24000000#32, strict := 0xFC000000#32, loose := 0xFC000000#32, optional := some .addiu },
  { mnemonic := "slti", pattern := 0x28000000#32, strict := 0xFC000000#32, loose := 0xFC000000#32, optional := some .slti },
  { mnemonic := "sltiu", pattern := 0x2C000000#32, strict := 0xFC000000#32, loose := 0xFC000000#32, optional := some .sltiu },
  { mnemonic := "lbu", pattern := 0x90000000#32, strict := 0xFC000000#32, loose := 0xFC000000#32, optional := some .lbu },
  { mnemonic := "lhu", pattern := 0x94000000#32, strict := 0xFC000000#32, loose := 0xFC000000#32, optional := some .lhu }]

/-- All 47 rows. -/
def maskRows : List MaskRow := maskRowsR ++ maskRowsIJ ++ maskRowsOptional

/-- A row is admitted (R90) and matches the word under the decode setting (R88): `word & mask == match`. -/
def MaskRow.Matches (c : Config) (w : Word) (r : MaskRow) : Prop :=
  (∀ op, r.optional = some op → c.admits op = true) ∧
  w &&& (if c.strictDecode then r.strict else r.loose) = r.pattern

/-! ### Lists of instructions -/

/-- The destination register of every instruction that writes one through the register-write stage (R314). -/
def destination : Instr → Option Reg
  | .add rd _ _ | .sub rd _ _ | .and rd _ _ | .or rd _ _ | .nor rd _ _ | .xor rd _ _ | .slt rd _ _ => some rd
  | .sll rd _ _ | .srl rd _ _ | .sra rd _ _ | .mfhi rd | .mflo rd => some rd
  | .addi rt _ _ | .andi rt _ _ | .ori rt _ _ | .xori rt _ _ | .lui rt _ => some rt
  | .lb rt _ _ | .lh rt _ _ | .lw rt _ _ => some rt
  | .addu rd _ _ | .subu rd _ _ | .sltu rd _ _ | .sllv rd _ _ | .srlv rd _ _ | .srav rd _ _ => some rd
  | .addiu rt _ _ | .slti rt _ _ | .sltiu rt _ _ | .lbu rt _ _ | .lhu rt _ _ => some rt
  | .jr _ | .jalr _ | .mthi _ | .mtlo _ | .mult _ _ | .multu _ _ | .div _ _ | .divu _ _ | .syscall => none
  | .beq _ _ _ | .bne _ _ _ | .sb _ _ _ | .sh _ _ _ | .sw _ _ _ | .j _ | .jal _ => none

/-- The base register and offset of the stores. -/
def storeOperands : Instr → Option (Reg × BitVec 16)
  | .sb _ rs imm | .sh _ rs imm | .sw _ rs imm => some (rs, imm)
  | _ => none

/-- The instructions that write HI or LO (R25, R128). -/
def writesHiLo : Instr → Bool
  | .mthi _ | .mtlo _ | .mult _ _ | .multu _ _ | .div _ _ | .divu _ _ => true
  | _ => false

/-- The instructions that read HI or LO as they were: the moves from them, and the writers, which keep the other half
or, at a division fault, both (R25). -/
def readsHiLo : Instr → Bool
  | .mfhi _ | .mflo _ => true
  | i => writesHiLo i

/-- What every instruction leaves alone: the parameters and `LAST_ADDR`. -/
def KeepsFixed (s t : State) : Prop := t.cfg = s.cfg ∧ t.lastAddr = s.lastAddr

/-- Every byte of memory reads as before. -/
def KeepsMemory (s t : State) : Prop := ∀ a, t.mem.readByte a = s.mem.readByte a

/-- HI and LO are as before. -/
def KeepsHiLo (s t : State) : Prop := t.hi = s.hi ∧ t.lo = s.lo

/-- The outcome with HI and LO of its next state replaced. -/
def withHiLo (hi lo : Word) : Result → Result
  | .next t => .next { t with hi := hi, lo := lo }
  | .fault f => .fault f
  | .refused r => .refused r

end Sys2Proof.Effect

open Sys2Proof Sys2Proof.Machine Sys2Proof.Effect Sys2Proof.Safety

/-! ### Decoding and encoding -/

/-- Words written out from R95 decode to the instructions they stand for, one or two a family. The numeric codes are
D3 (log entry 16). -/
def Obligations.SampleWordsDecode : Prop :=
  ∀ c : Config,
    decode c 0b00000001000010010101000000100000#32 = .ok (.add 10#5 8#5 9#5) ∧
    decode c 0b00000000000010010101000100000000#32 = .ok (.sll 10#5 9#5 4#5) ∧
    decode c 0b00000011001000001111100000001001#32 = .ok (.jalr 25#5) ∧
    decode c 0b00000001000010010000000000011000#32 = .ok (.mult 8#5 9#5) ∧
    decode c 0b00000000000000000000000000001100#32 = .ok .syscall ∧
    decode c 0b00100001000010011111111111111111#32 = .ok (.addi 9#5 8#5 0xFFFF#16) ∧
    decode c 0b00010001000010010000000000000011#32 = .ok (.beq 8#5 9#5 3#16) ∧
    decode c 0b10001111101010000000000000001000#32 = .ok (.lw 8#5 29#5 8#16) ∧
    decode c 0b00001100000000000000010000000101#32 = .ok (.jal 0x405#26) ∧
    decode { c with optionalOps := [.sllv] } 0b00000001000010010101000000000100#32 = .ok (.sllv 10#5 9#5 8#5)

/-- Encoding packs the record's fields into the positions of its format, its id into the funct or opcode field, and
decoding the encoded word of an instruction the configuration admits gives the instruction back, with every operand at
every value (R99). -/
def Obligations.EncodePacksAndDecodesBack : Prop :=
  ∀ (c : Config) (i : Instr),
    (i.record.format = some .r ∧
        encode i = wordR i.record.rs i.record.rt i.record.rd i.record.shamt i.record.id ∨
      i.record.format = some .i ∧ encode i = wordI i.record.id i.record.rs i.record.rt i.record.imm ∨
      i.record.format = some .j ∧ encode i = wordJ i.record.id i.record.target) ∧
    i.record.word = some (encode i) ∧ (i.wellFormed c = true → decode c (encode i) = .ok i)

/-- A word decodes under the field rules exactly when it matches a row of the opcode table in mask form, and it decodes to
the instruction of that row's mnemonic. The numeric codes are D3 and the strict and loose masks D4 (log entry 16). -/
def Obligations.DecodeAgreesWithMaskTable : Prop :=
  ∀ (c : Config) (w : Word) (m : String),
    (∃ i, decode c w = .ok i ∧ i.record.mnemonic = m) ↔ (∃ r ∈ maskRows, r.mnemonic = m ∧ r.Matches c w)

/-- Under strict decoding a decoded word is the encoding of its instruction: no two words mean the same. `syscall`
alone ignores bits 25:6. Strict decoding is D4, the ignored bits of `syscall` D27 and the numeric codes D3 (log entry
16). -/
def Obligations.StrictWordIsItsEncoding : Prop :=
  ∀ (c : Config) (w : Word) (i : Instr), c.strictDecode = true → decode c w = .ok i →
    (i ≠ .syscall → encode i = w) ∧ (i = .syscall → fieldOpcode w = 0#6 ∧ fieldFunct w = 0x0C#6)

/-- A decoded instruction's record carries the word's own fields wherever its class uses them, under either decode
setting, and zero elsewhere: the record packs to the word with its unused fields zeroed. The two decode settings are
D4, the ignored bits of `syscall` D27 and the numeric codes of the rows D3 (log entry 16). -/
def Obligations.LooseWordDecodesAsItsStrictForm : Prop :=
  ∀ (c : Config) (w : Word) (i : Instr), decode c w = .ok i →
    decode { c with strictDecode := true } (encode i) = .ok i ∧
    (∀ r ∈ maskRows, r.mnemonic = i.record.mnemonic → encode i &&& r.strict = r.pattern ∧
      encode i &&& ~~~r.strict = w &&& (if i = .syscall then 0#32 else ~~~r.strict))

/-- Words whose opcode, or opcode 0 and funct, no instruction has are `ILLEGAL`. The lists are the spec's own numeric
codes: D3, and G1 of 93_implementation_defined.md (log entry 16). -/
def Obligations.UnassignedCodesAreIllegal : Prop :=
  ∀ (c : Config) (w : Word),
    (fieldOpcode w ∈ [0x01#6, 0x06#6, 0x07#6, 0x22#6, 0x26#6, 0x27#6, 0x2A#6] ∨
      (0x10 ≤ (fieldOpcode w).toNat ∧ (fieldOpcode w).toNat ≤ 0x1F) ∨ 0x2C ≤ (fieldOpcode w).toNat ∨
      (fieldOpcode w = 0#6 ∧
        (fieldFunct w ∈ [0x01#6, 0x05#6, 0x0A#6, 0x0B#6, 0x28#6, 0x29#6] ∨
          (0x0D ≤ (fieldFunct w).toNat ∧ (fieldFunct w).toNat ≤ 0x0F) ∨
          (0x14 ≤ (fieldFunct w).toNat ∧ (fieldFunct w).toNat ≤ 0x17) ∨
          (0x1C ≤ (fieldFunct w).toNat ∧ (fieldFunct w).toNat ≤ 0x1F) ∨ 0x2C ≤ (fieldFunct w).toNat))) →
    ∃ reason, decode c w = .error reason

/-! ### The step -/

/-- When the machine runs, the fetch checks pass and the word at `pc` decodes to i, the step is the execution of i.
The checks of the fetch are the spec's decisions D15 and D34 (log entry 16). -/
def Obligations.StepRunsDecodedInstruction : Prop :=
  ∀ (s : State) (i : Instr), s.status = .running → s.pc.toNat ≤ s.lastAddr.toNat →
    s.cfg.textBase.toNat ≤ s.pc.toNat → (s.pc.toNat - s.cfg.textBase.toNat) % 4 = 0 → inArray s.cfg s.pc = true →
    decode s.cfg (s.mem.readWord (wordBase s.cfg s.pc)) = .ok i → step s = exec i s

/-- The fetch stage: past `LAST_ADDR` the run ends; else a misaligned `pc`, or one below the base, is `FETCH_FAULT`;
both change nothing else (the signals are cleared, log entry 9). The comparison with `LAST_ADDR` is D34 and
`FETCH_FAULT` D15 (log entry 16). -/
def Obligations.FetchEndsOrFaults : Prop :=
  ∀ s : State, s.status = .running →
    (s.lastAddr.toNat < s.pc.toNat →
      step s = .next { s with signals := {}, changedAddr := none, changedReg := none, status := .haltedEnd }) ∧
    (s.pc.toNat ≤ s.lastAddr.toNat →
      (s.pc.toNat < s.cfg.textBase.toNat ∨ (s.pc.toNat - s.cfg.textBase.toNat) % 4 ≠ 0) →
      step s = .next (faulted s {} none (.fetchFault s.pc)))

/-- A fetched word that is `ILLEGAL` raises `ILLEGAL_INSTRUCTION` with the word and changes nothing else. The fault is
D6 (log entry 16); that the signals and reports are cleared there is the model's reading, log entry 9 (DEDUCED). -/
def Obligations.IllegalWordFaultsUnchanged : Prop :=
  ∀ (s : State) (w : Word) (reason : Illegal), s.status = .running → s.fetch = .word w →
    decode s.cfg w = .error reason → step s = .next (faulted s {} none (.illegalInstruction w))

/-- No step leads out of a faulted or halted state. -/
def Obligations.EndedRunTakesNoStep : Prop :=
  ∀ s : State, s.status ≠ .running → ∀ t, step s ≠ .next t

/-- Every signal is cleared at the start of a cycle, and no signal or report of one cycle reaches the next: a running
machine's step does not depend on them. That the reports cross no cycle either is D29 (log entry 16); that signals and
reports are cleared also in a cycle that ends at the fetch or at the decode is the model's reading, log entry 9
(DEDUCED, unsafe), and that they stand in State after the cycle is its choice, log entry 10 (DESIGN CHOICE). -/
def Obligations.SignalsDoNotCrossCycles : Prop :=
  (∀ s : State, s.beginCycle.signals =
    { branch := false, jump := false, memRead := false, memWrite := false, regWrite := false, memToReg := false,
      signExt := false, regDst := false, aluSrcImm := false, widthMask := 0#32, syscallValid := false,
      syscallNum := 0#32, error := none }) ∧
  ∀ (s : State) (g : ControlSignals) (a : Option Word) (r : Option Reg), s.status = .running →
    step { s with signals := g, changedAddr := a, changedReg := r } = step s

/-- A running machine that meets the invariant always has a next state: no fault or refusal of the model stops it.
That a fault of the spec is a next state is the model's reading, log entry 5 (DEDUCED); log entry 11 names the stop it
rules out. -/
def Obligations.RunningMachineAlwaysSteps : Prop :=
  ∀ s : State, Invariant s → s.status = .running → ∃ t, step s = .next t

/-! ### Reset and image load -/

/-- The values reset leaves before an image is loaded, for every parameter setting: registers, HI, LO and memory 0,
`x[29]` at `SP_INIT`, `pc` and its mirror at `TEXT_BASE`, every signal clear. `SP_INIT` is D13, the reset `pc` and HI
= LO = 0 D14, `x[29]` as the stack pointer D16 (log entry 16); the base is D12, and that the parameters stand in State
is the model's choice, log entry 1. -/
def Obligations.ResetLeavesSpecValues : Prop :=
  ∀ c : Config,
    (∀ r : Reg, (State.cleared c).reg r = if r = 29#5 then c.spInit else 0#32) ∧
    (State.cleared c).hi = 0#32 ∧ (State.cleared c).lo = 0#32 ∧
    (State.cleared c).pc = c.textBase ∧ (State.cleared c).pcMirror = c.textBase ∧
    (∀ a, (State.cleared c).mem.readByte a = 0#8) ∧ (State.cleared c).signals = {}

/-- The image load: more than N words are refused with the count; otherwise word k of the image stands at
`TEXT_BASE + 4k`, every other word of the array keeps 0, `LAST_ADDR` is `TEXT_BASE + 4*(count-1)`, no register changes,
and the run starts. -/
def Obligations.ImageLoadPlacesWords : Prop :=
  ∀ (c : Config) (image : List Word), c.WellFormed →
    (c.instrCapacity < image.length → boot c image = .refused (.imageTooLarge image.length)) ∧
    (image.length ≤ c.instrCapacity → 0 < image.length →
      ∃ t, boot c image = .next t ∧
        (∀ k, (h : k < image.length) → t.mem.readWord (c.textBase.toNat + 4 * k) = image[k]) ∧
        (∀ k, image.length ≤ k → t.mem.readWord (c.textBase.toNat + 4 * k) = 0#32) ∧
        t.lastAddr.toNat = c.textBase.toNat + 4 * (image.length - 1) ∧
        (∀ r, t.reg r = (State.cleared c).reg r) ∧ t.hi = 0#32 ∧ t.lo = 0#32 ∧
        t.pc = c.textBase ∧ t.pcMirror = c.textBase ∧ t.status = .running)

/-- An empty image: the run has ended before any cycle. The status and `LAST_ADDR` are D23 (log entry 16) and the `pc`
D14; log entry 7 (DEDUCED) gives them to reset. -/
def Obligations.EmptyImageHaltsAtOnce : Prop :=
  ∀ c : Config, ∃ t, boot c [] = .next t ∧ t.status = .haltedEnd ∧ t.pc = c.textBase ∧
    t.lastAddr = c.textBase - 4#32

/-- The invariant holds at the reset state. The parameter values are the model's choice, log entry 1 (DESIGN CHOICE),
the default settings log entry 3; the status and `LAST_ADDR` are log entry 7 (DEDUCED). -/
def Obligations.ResetMeetsInvariant : Prop := Invariant State.reset

/-- The invariant holds after the load of any image into a reset machine with well-formed parameters. -/
def Obligations.LoadedMachineMeetsInvariant : Prop :=
  ∀ (c : Config) (image : List Word) (t : State), c.WellFormed → boot c image = .next t → Invariant t

/-- Every step keeps the invariant. -/
def Obligations.StepKeepsMachineInvariant : Prop :=
  ∀ s t : State, Invariant s → step s = .next t → Invariant t

/-! ### Rules over the whole machine -/

/-- Every fault is precise: the faulted state is the state before the cycle, but for the status, the signals and the
reports; `pc` names the faulting instruction. What a fault leaves is D24 (log entry 16); that the faulted state is a
next state is log entry 5 (DEDUCED). -/
def Obligations.FaultsArePrecise : Prop :=
  ∀ (s t : State) (f : CoreFault), step s = .next t → t.status = .faulted f →
    t.pc = s.pc ∧ t.pcMirror = s.pcMirror ∧ (∀ r, t.reg r = s.reg r) ∧ KeepsHiLo s t ∧ KeepsMemory s t ∧
    KeepsFixed s t ∧ t.signals.error = some f

/-- The faults a step can raise, each with the value it records: never `BAD_FORMAT`; `BAD_REG` only with index 0.
`ILLEGAL_INSTRUCTION` is D6, the division faults D8, `MEM_FAULT` outside the array D9 and `FETCH_FAULT` with the `pc`
D15 (log entry 16). The address of a `MEM_FAULT` is said here only to lie outside the array; that it is the effective
address is said with the loads and stores. -/
def Obligations.StepFaultsRecordTheirCause : Prop :=
  ∀ (s t : State) (f : CoreFault), step s = .next t → t.status = .faulted f →
    f = .badReg 0 ∨ (∃ w, f = .illegalInstruction w ∧ s.fetch = .word w) ∨
    (∃ a, f = .memFault a ∧ inArray s.cfg a = false) ∨ f = .fetchFault s.pc ∨ f = .divByZero ∨ f = .divOverflow

/-- A record of no format raises `BAD_FORMAT` and changes no state; no step on a fetched word raises it. The form of
such a record and the value recorded are the model's choice, log entry 12 (DESIGN CHOICE); that the signals and
reports are cleared there is log entry 9 (DEDUCED). -/
def Obligations.BadFormatOnlyFromForeignRecords : Prop :=
  (∀ (r : Record) (s : State), r.format = none → execRecord r s = .next (faulted s {} none (.badFormat r))) ∧
  (∀ (s t : State) (r : Record), step s = .next t → t.status ≠ .faulted (.badFormat r))

/-- No step changes the parameters or `LAST_ADDR`. That the parameters stand in State is the model's choice, log entry
1. -/
def Obligations.StepsNeverChangeLastAddr : Prop :=
  ∀ s t : State, step s = .next t → KeepsFixed s t

/-- Only the six writers change HI or LO, and an instruction that neither moves from them nor writes them does the same
whatever they hold. -/
def Obligations.OnlyHiLoFamilyUsesHiLo : Prop :=
  (∀ (i : Instr) (s t : State), writesHiLo i = false → exec i s = .next t → KeepsHiLo s t) ∧
  (∀ (i : Instr) (s : State) (hi lo : Word), readsHiLo i = false →
    exec i { s with hi := hi, lo := lo } = withHiLo hi lo (exec i s))

/-- A step stores at most one word: every byte outside the word that the reported address names reads as before, and
where no address is reported all of memory does. That the reported address is always in the array rests on two choices
of the model: a cycle that raises `MEM_FAULT` reports none (log entry 15, DEDUCED, unsafe), and so does a cycle that
ends at the fetch or at the decode (log entry 9, DEDUCED). That an address names a whole word is D9, and that a store
replaces it D11 (log entry 16). -/
def Obligations.StepTouchesOneWord : Prop :=
  ∀ (s t : State), step s = .next t →
    (∀ ea, t.changedAddr = some ea → inArray s.cfg ea = true ∧
      ∀ a, (a < wordBase s.cfg ea ∨ wordBase s.cfg ea + 4 ≤ a) → t.mem.readByte a = s.mem.readByte a) ∧
    (t.changedAddr = none → KeepsMemory s t)

/-- A load reads the most recent store to its word, through any of the word's four addresses; a store to another word
does not change what it reads. That all four addresses name one word is D9, the masked load D10, and the replacement
of the whole word by a store D11 (log entry 16). -/
def Obligations.LoadReadsLatestStore : Prop :=
  ∀ (s t : State) (x y m v n : Word), s.mem.wf → s.memWrite x m v = .ok t → inArray s.cfg y = true →
    t.memRead y n =
      .ok ((if wordIndex s.cfg y = wordIndex s.cfg x then v &&& m else s.mem.readWord (wordBase s.cfg y)) &&& n)

/-- A stored word is the one the next fetch of its address returns. That the low address bits are ignored is D9, that
a fetch sees every earlier store D22, and the checks of the fetch are D15 and D34 (log entry 16). -/
def Obligations.StoredWordIsFetchedNext : Prop :=
  ∀ (s t : State) (rt rs : Reg) (imm : BitVec 16), s.mem.wf → exec (.sw rt rs imm) s = .next t →
    inArray s.cfg (s.reg rs + imm.signExtend 32) = true → inArray s.cfg t.pc = true →
    wordIndex s.cfg t.pc = wordIndex s.cfg (s.reg rs + imm.signExtend 32) →
    t.pc.toNat ≤ s.lastAddr.toNat → (t.pc.toNat - s.cfg.textBase.toNat) % 4 = 0 → t.fetch = .word (s.reg rt)

/-! ### The shared stages -/

/-- `commit(i, v)`: index 0 or above 31 is `BAD_REG` and writes nothing; any other index is written and reported, and
nothing else changes. -/
def Obligations.CommitWritesOrRefuses : Prop :=
  ∀ (s : State) (i : Nat) (v : Word),
    ((i = 0 ∨ 31 < i) → s.commit i v = .error (.badReg i)) ∧
    (0 < i → i ≤ 31 → ∃ t, s.commit i v = .ok t ∧
      (∀ r : Reg, t.reg r = if r.toNat = i then v else s.reg r) ∧ t.changedReg = some (BitVec.ofNat 5 i) ∧
      t = { s with regs := t.regs, changedReg := t.changedReg })

/-- The register-write control: a no-op without `regWrite` and `memToReg`; a load commits to rt; `jal` and `jalr` only
report `x[31]`; anything else commits to the slot `regDst` selects. -/
def Obligations.RegisterWriteControl : Prop :=
  ∀ (s : State) (rd rt : Reg) (v : Word),
    (s.signals.regWrite = false → s.signals.memToReg = false →
      s.registerWrite rd rt v = .ok { s with changedReg := none }) ∧
    (s.signals.memToReg = true → s.signals.memRead = true → s.registerWrite rd rt v = s.commit rt.toNat v) ∧
    (¬ (s.signals.memToReg = true ∧ s.signals.memRead = true) → s.signals.jump = true → s.signals.regWrite = true →
      s.registerWrite rd rt v = .ok { s with changedReg := some 31#5 }) ∧
    (¬ (s.signals.memToReg = true ∧ s.signals.memRead = true) →
      ¬ (s.signals.jump = true ∧ s.signals.regWrite = true) →
      (s.signals.regWrite = true ∨ s.signals.memToReg = true) →
      s.registerWrite rd rt v = if s.signals.regDst = true then s.commit rd.toNat v else s.commit rt.toNat v)

/-- The PC updater: the result if `branch` or `jump` is set, else `pc + 4`, mirrored into pseudo-register 32; nothing
else changes. -/
def Obligations.PcUpdaterRedirectsOrAdvances : Prop :=
  ∀ (s : State) (result : Word),
    ((s.signals.branch = true ∨ s.signals.jump = true) →
      s.updatePc result = { s with pc := result, pcMirror := result }) ∧
    (s.signals.branch = false → s.signals.jump = false →
      s.updatePc result = { s with pc := s.pc + 4#32, pcMirror := s.pc + 4#32 }) ∧
    (s.updatePc result).fileEntry 32 = some (s.updatePc result).pc

/-- The memory stage: a store writes the masked rt over the whole word and passes the address on; a load reads the masked
word; neither passes the address on and reports nothing; outside the array, `MEM_FAULT`: the cycle ends there, with the
error set and memory, registers and `pc` unchanged. `MEM_FAULT` and the ignored low address bits are D9, the store of the
whole word D11 (log entry 16); the signals and reports of the faulted state are the model's, log entry 15 (DEDUCED,
unsafe). -/
def Obligations.MemoryStageReadsWritesOrPasses : Prop :=
  ∀ (s : State) (result rtv : Word),
    (s.signals.memWrite = true → inArray s.cfg result = true →
      s.memoryStage result rtv = .ok ({ s with
        mem := s.mem.writeWord (wordBase s.cfg result) (rtv &&& s.signals.widthMask),
        changedAddr := some result }, result)) ∧
    (s.signals.memWrite = false → s.signals.memRead = true → inArray s.cfg result = true →
      s.memoryStage result rtv = .ok ({ s with changedAddr := some result },
        s.mem.readWord (wordBase s.cfg result) &&& s.signals.widthMask)) ∧
    (s.signals.memWrite = false → s.signals.memRead = false →
      s.memoryStage result rtv = .ok ({ s with changedAddr := none }, result)) ∧
    ((s.signals.memWrite = true ∨ s.signals.memRead = true) → inArray s.cfg result = false →
      s.memoryStage result rtv = .error (.memFault result)) ∧
    (∀ (rd rt : Reg) (g : ControlSignals), (g.memWrite = true ∨ g.memRead = true) → g.error = none →
      inArray s.cfg result = false → s.finishCycle rd rt rtv g result = faulted s g none (.memFault result))

/-- The half-word multiplier of the source computes the exact products that `multu` and `mult` use. The signedness and
the halves are D32 (log entry 16). -/
def Obligations.LongMultiplierIsExact : Prop :=
  ∀ a b : Word,
    ((umul64 a b).1 ++ (umul64 a b).2 : BitVec 64) = BitVec.ofNat 64 (a.toNat * b.toNat) ∧
    ((smul64 a b).1 ++ (smul64 a b).2 : BitVec 64) = BitVec.ofInt 64 (a.toInt * b.toInt)

/-- The host sees the request of the contract: the number in `x[2]` at the syscall with the argument `x[4]`, and any
other number as unsupported. The register numbers are D16, the form of the signal D17, and that the host changes
nothing D31 (log entry 16). -/
def Obligations.SyscallPresentsRequest : Prop :=
  ∀ s t : State, exec .syscall s = .next t →
    t.signals.syscallValid = true ∧ t.signals.syscallNum = s.reg 2#5 ∧ t.reg 4#5 = s.reg 4#5 ∧
    (s.reg 2#5 = 1#32 → t.hostRequest = some (.printSigned (s.reg 4#5))) ∧
    (s.reg 2#5 = 2#32 → t.hostRequest = some (.printFloating (s.reg 4#5))) ∧
    (s.reg 2#5 = 3#32 → t.hostRequest = some (.printScientific (s.reg 4#5))) ∧
    (s.reg 2#5 = 4#32 → t.hostRequest = some (.printString (s.reg 4#5))) ∧
    (s.reg 2#5 = 10#32 → t.hostRequest = some .exit) ∧
    (s.reg 2#5 = 11#32 → t.hostRequest = some (.printCharacter (s.reg 4#5))) ∧
    (s.reg 2#5 = 17#32 → t.hostRequest = some (.exitWithCode (s.reg 4#5))) ∧
    (s.reg 2#5 = 34#32 → t.hostRequest = some (.printHex (s.reg 4#5))) ∧
    (s.reg 2#5 ∉ [1#32, 2#32, 3#32, 4#32, 10#32, 11#32, 17#32, 34#32] →
      t.hostRequest = some (.unsupported (s.reg 2#5)))

/-! ### The instructions, one result and completion statement for each

Each says the encoding (the opcode and funct values are the spec's, from general knowledge), the whole after-state where
the instruction completes, and the whole after-state where it faults. -/

/-- `add`, `sub`, `addi`: the sum or difference modulo 2^32; overflow is no fault (the spec's decision D7).
The numeric codes are D3 (log entry 16); the `BAD_REG` after-state keeps `pc` by D24, and its signals and reports are
the model's, log entry 15 (DEDUCED, unsafe). -/
def Obligations.AddSubAddiWrap : Prop :=
  (∀ rd rs rt : Reg,
    Encoded (wordR rs rt rd 0#5 0x20#6) (.add rd rs rt) ∧
    ResultToRd (.add rd rs rt) rd (fun s => s.reg rs + s.reg rt) ∧
    Encoded (wordR rs rt rd 0#5 0x22#6 ) (.sub rd rs rt) ∧
    ResultToRd (.sub rd rs rt) rd (fun s => s.reg rs - s.reg rt)) ∧
  (∀ (rt rs : Reg) (imm : BitVec 16),
    Encoded (wordI 0x08#6 rs rt imm) (.addi rt rs imm) ∧
    ResultToRt (.addi rt rs imm) rt (fun s => s.reg rs + imm.signExtend 32))

/-- `and`, `or`, `nor`, `xor`: bitwise on the two registers.
The numeric codes are D3 (log entry 16); the `BAD_REG` after-state keeps `pc` by D24, and its signals and reports are
the model's, log entry 15 (DEDUCED, unsafe). -/
def Obligations.BitwiseRegisterResults : Prop :=
  ∀ rd rs rt : Reg,
    Encoded (wordR rs rt rd 0#5 0x24#6) (.and rd rs rt) ∧
    ResultToRd (.and rd rs rt) rd (fun s => s.reg rs &&& s.reg rt) ∧
    Encoded (wordR rs rt rd 0#5 0x25#6) (.or rd rs rt) ∧
    ResultToRd (.or rd rs rt) rd (fun s => s.reg rs ||| s.reg rt) ∧
    Encoded (wordR rs rt rd 0#5 0x27#6) (.nor rd rs rt) ∧
    ResultToRd (.nor rd rs rt) rd (fun s => ~~~(s.reg rs ||| s.reg rt)) ∧
    Encoded (wordR rs rt rd 0#5 0x26#6) (.xor rd rs rt) ∧
    ResultToRd (.xor rd rs rt) rd (fun s => s.reg rs ^^^ s.reg rt)

/-- `sll`, `srl`, `sra`: rt shifted by the 5-bit shamt (the operand roles are the spec's decision D28).
The numeric codes are D3 (log entry 16); the `BAD_REG` after-state keeps `pc` by D24, and its signals and reports are
the model's, log entry 15 (DEDUCED, unsafe). -/
def Obligations.ShiftByAmountResults : Prop :=
  ∀ (rd rt : Reg) (shamt : BitVec 5),
    Encoded (wordR 0#5 rt rd shamt 0x00#6) (.sll rd rt shamt) ∧
    ResultToRd (.sll rd rt shamt) rd (fun s => s.reg rt <<< shamt.toNat) ∧
    Encoded (wordR 0#5 rt rd shamt 0x02#6) (.srl rd rt shamt) ∧
    ResultToRd (.srl rd rt shamt) rd (fun s => s.reg rt >>> shamt.toNat) ∧
    Encoded (wordR 0#5 rt rd shamt 0x03#6) (.sra rd rt shamt) ∧
    ResultToRd (.sra rd rt shamt) rd (fun s => (s.reg rt).sshiftRight shamt.toNat)

/-- `slt`: 1 if rs is less than rt as signed integers, else 0 (the spec's decision D33).
The numeric codes are D3 (log entry 16); the `BAD_REG` after-state keeps `pc` by D24, and its signals and reports are
the model's, log entry 15 (DEDUCED, unsafe). -/
def Obligations.SetLessThanIsSigned : Prop :=
  ∀ rd rs rt : Reg,
    Encoded (wordR rs rt rd 0#5 0x2A#6) (.slt rd rs rt) ∧
    ResultToRd (.slt rd rs rt) rd (fun s => if (s.reg rs).toInt < (s.reg rt).toInt then 1#32 else 0#32)

/-- `jr`: `pc` takes the register unchanged, and nothing else changes. The numeric funct is D3 (log entry 16), `regWrite` = 0
is D20 and `regDst` = 1 D35. -/
def Obligations.JumpRegisterGoesToRegister : Prop :=
  ∀ (s : State) (rs : Reg),
    Encoded (wordR rs 0#5 0#5 0#5 0x08#6) (.jr rs) ∧
    Runs (.jr rs) s (wentTo s { jump := true, regDst := true } (s.reg rs))

/-- `jalr`: `pc` takes the old value of the register, `x[31]` the address plus 4 (rd = 31 is the spec's decision D5).
The numeric funct is D3 (log entry 16), and `regDst` = 1 D35. -/
def Obligations.JumpRegisterLinks : Prop :=
  ∀ (s : State) (rs : Reg),
    Encoded (wordR rs 0#5 31#5 0#5 0x09#6) (.jalr rs) ∧
    Runs (.jalr rs) s (linkedTo s { jump := true, regWrite := true, regDst := true } (s.reg rs))

/-- `mfhi`, `mflo`: rd takes HI or LO, which are 0 after reset.
The numeric codes are D3 (log entry 16); the `BAD_REG` after-state keeps `pc` by D24, and its signals and reports are
the model's, log entry 15 (DEDUCED, unsafe). -/
def Obligations.MoveFromHiLoResults : Prop :=
  ∀ rd : Reg,
    Encoded (wordR 0#5 0#5 rd 0#5 0x10#6) (.mfhi rd) ∧ ResultToRd (.mfhi rd) rd (fun s => s.hi) ∧
    Encoded (wordR 0#5 0#5 rd 0#5 0x12#6) (.mflo rd) ∧ ResultToRd (.mflo rd) rd (fun s => s.lo) ∧
    (∀ c, (State.cleared c).hi = 0#32 ∧ (State.cleared c).lo = 0#32)

/-- `mthi`, `mtlo`: HI or LO takes rs, the other is unchanged. The only signal set is `regDst`, as in every R-format row of
R126 (D35); the numeric functs are D3 (log entry 16). -/
def Obligations.MoveToHiLoResults : Prop :=
  ∀ (s : State) (rs : Reg),
    Encoded (wordR rs 0#5 0#5 0#5 0x11#6) (.mthi rs) ∧ Runs (.mthi rs) s (wroteHiLo s (s.reg rs) s.lo) ∧
    Encoded (wordR rs 0#5 0#5 0#5 0x13#6) (.mtlo rs) ∧ Runs (.mtlo rs) s (wroteHiLo s s.hi (s.reg rs))

/-- `mult`, `multu`: HI:LO is the exact 64-bit product, signed or unsigned (the halves are the spec's decision D32). The
numeric functs are D3 (log entry 16), and `regDst` = 1 D35. -/
def Obligations.MultiplyIsExact : Prop :=
  ∀ (s : State) (rs rt : Reg),
    Encoded (wordR rs rt 0#5 0#5 0x18#6) (.mult rs rt) ∧ Encoded (wordR rs rt 0#5 0#5 0x19#6) (.multu rs rt) ∧
    (∃ hi lo, Runs (.mult rs rt) s (wroteHiLo s hi lo) ∧
      (hi ++ lo : BitVec 64).toInt = (s.reg rs).toInt * (s.reg rt).toInt) ∧
    (∃ hi lo, Runs (.multu rs rt) s (wroteHiLo s hi lo) ∧
      (hi ++ lo : BitVec 64).toNat = (s.reg rs).toNat * (s.reg rt).toNat)

/-- `div`, `divu`: quotient truncated toward zero to LO, remainder with the sign of the dividend to HI, as exact integers;
the corners fault before any write (the spec's decision D8). The numeric functs are D3 (log entry 16); the `DIV_BY_ZERO`
and `DIV_OVERFLOW` after-states keep `pc` by D24, and their signals and reports are the model's, log entry 15 (DEDUCED,
unsafe). -/
def Obligations.DivideTruncatesOrFaults : Prop :=
  ∀ (s : State) (rs rt : Reg),
    Encoded (wordR rs rt 0#5 0#5 0x1A#6) (.div rs rt) ∧ Encoded (wordR rs rt 0#5 0#5 0x1B#6) (.divu rs rt) ∧
    (s.reg rt = 0#32 → Runs (.div rs rt) s (faulted s quiet none .divByZero) ∧
      Runs (.divu rs rt) s (faulted s quiet none .divByZero)) ∧
    (s.reg rs = 0x80000000#32 → s.reg rt = 0xFFFFFFFF#32 → Runs (.div rs rt) s (faulted s quiet none .divOverflow)) ∧
    (s.reg rt ≠ 0#32 → ¬ (s.reg rs = 0x80000000#32 ∧ s.reg rt = 0xFFFFFFFF#32) →
      ∃ q r, Runs (.div rs rt) s (wroteHiLo s r q) ∧ q.toInt = (s.reg rs).toInt.tdiv (s.reg rt).toInt ∧
        r.toInt = (s.reg rs).toInt - q.toInt * (s.reg rt).toInt) ∧
    (s.reg rt ≠ 0#32 →
      ∃ q r, Runs (.divu rs rt) s (wroteHiLo s r q) ∧ q.toNat = (s.reg rs).toNat / (s.reg rt).toNat ∧
        r.toNat = (s.reg rs).toNat % (s.reg rt).toNat)

/-- `syscall`: the signal carries `x[2]`, `pc` advances, and numbers 10 and 17 end the run, 17 with the code `x[4]`; any
other number leaves the run as it was. The register numbers are D16, the time of the halt D17, the ignored bits 25:6 D27,
the numeric funct D3 (log entry 16), and `regDst` = 1 D35. -/
def Obligations.SyscallSignalsOrExits : Prop :=
  Encoded (wordR 0#5 0#5 0#5 0#5 0x0C#6) .syscall ∧
  (∀ (c : Config) (code : BitVec 20), decode c (0#6 ++ code ++ 0x0C#6 : BitVec 32) = .ok .syscall) ∧
  ∀ s : State,
    let t := wentTo s { regDst := true, syscallValid := true, syscallNum := s.reg 2#5 } (s.pc + 4#32)
    (s.reg 2#5 = 10#32 → Runs .syscall s { t with status := .haltedExit none }) ∧
    (s.reg 2#5 = 17#32 → Runs .syscall s { t with status := .haltedExit (some (s.reg 4#5)) }) ∧
    (s.reg 2#5 ≠ 10#32 → s.reg 2#5 ≠ 17#32 → Runs .syscall s t)

/-- `andi`, `ori`, `xori`: with the immediate sign-extended, always (the source's own words).
The numeric codes are D3 (log entry 16); the `BAD_REG` after-state keeps `pc` by D24, and its signals and reports are
the model's, log entry 15 (DEDUCED, unsafe). `signExt` = 1 is D19. -/
def Obligations.BitwiseImmediatesSignExtend : Prop :=
  ∀ (rt rs : Reg) (imm : BitVec 16),
    Encoded (wordI 0x0C#6 rs rt imm) (.andi rt rs imm) ∧
    ResultToRt (.andi rt rs imm) rt (fun s => s.reg rs &&& imm.signExtend 32) ∧
    Encoded (wordI 0x0D#6 rs rt imm) (.ori rt rs imm) ∧
    ResultToRt (.ori rt rs imm) rt (fun s => s.reg rs ||| imm.signExtend 32) ∧
    Encoded (wordI 0x0E#6 rs rt imm) (.xori rt rs imm) ∧
    ResultToRt (.xori rt rs imm) rt (fun s => s.reg rs ^^^ imm.signExtend 32)

/-- `lui`: rt takes the immediate over sixteen zeros (that it enables register write is the spec's reading, R225).
The numeric codes are D3 (log entry 16); the `BAD_REG` after-state keeps `pc` by D24, and its signals and reports are
the model's, log entry 15 (DEDUCED, unsafe). `signExt` = 1 is D19. -/
def Obligations.LoadUpperImmediateResult : Prop :=
  ∀ (rt : Reg) (imm : BitVec 16),
    Encoded (wordI 0x0F#6 0#5 rt imm) (.lui rt imm) ∧
    ResultToRt (.lui rt imm) rt (fun _ => (imm ++ 0#16 : BitVec 32))

/-- `beq`, `bne`: taken, `pc` goes to `pc + 4 + (sext_32(imm) << 2)`; not taken, to `pc + 4`; nothing else changes. The
numeric opcodes are D3 (log entry 16); the signals `signExt` = 1 and `aluSrcImm` = 1 are D19 and D20. -/
def Obligations.BranchesTakenOrNot : Prop :=
  ∀ (s : State) (rs rt : Reg) (imm : BitVec 16),
    Encoded (wordI 0x04#6 rs rt imm) (.beq rs rt imm) ∧ Encoded (wordI 0x05#6 rs rt imm) (.bne rs rt imm) ∧
    (s.reg rs = s.reg rt →
      Runs (.beq rs rt imm) s (wentTo s (branching true) (s.pc + 4#32 + imm.signExtend 32 <<< 2)) ∧
      Runs (.bne rs rt imm) s (wentTo s (branching false) (s.pc + 4#32))) ∧
    (s.reg rs ≠ s.reg rt →
      Runs (.beq rs rt imm) s (wentTo s (branching false) (s.pc + 4#32)) ∧
      Runs (.bne rs rt imm) s (wentTo s (branching true) (s.pc + 4#32 + imm.signExtend 32 <<< 2)))

/-- `lb`, `lh`: the low 8 or 16 bits of the addressed word, zero-extended (the spec's decisions D9, D10).
The numeric opcodes are D3, `MEM_FAULT` and the ignored low address bits D9 (log entry 16); the `MEM_FAULT` and `BAD_REG`
after-states keep `pc` by D24, and their signals and reports (the address of a load into register 0 among them) are the
model's, log entry 15 (DEDUCED, unsafe). `signExt` = 1 is D19, `regWrite` = 0 D20. -/
def Obligations.NarrowLoadsZeroExtend : Prop :=
  ∀ (rt rs : Reg) (imm : BitVec 16),
    Encoded (wordI 0x20#6 rs rt imm) (.lb rt rs imm) ∧ LoadOf (.lb rt rs imm) 0x000000FF#32 rt rs imm ∧
    Encoded (wordI 0x21#6 rs rt imm) (.lh rt rs imm) ∧ LoadOf (.lh rt rs imm) 0x0000FFFF#32 rt rs imm

/-- `lw`: the addressed word.
The numeric opcodes are D3, `MEM_FAULT` and the ignored low address bits D9 (log entry 16); the `MEM_FAULT` and `BAD_REG`
after-states keep `pc` by D24, and their signals and reports (the address of a load into register 0 among them) are the
model's, log entry 15 (DEDUCED, unsafe). `signExt` = 1 is D19, `regWrite` = 0 D20. -/
def Obligations.WordLoadReadsWord : Prop :=
  ∀ (rt rs : Reg) (imm : BitVec 16),
    Encoded (wordI 0x23#6 rs rt imm) (.lw rt rs imm) ∧ LoadOf (.lw rt rs imm) 0xFFFFFFFF#32 rt rs imm

/-- `sb`, `sh`: the word becomes the low 8 or 16 bits of rt; its other bits become 0 (the spec's decision D11).
The numeric opcodes are D3, `MEM_FAULT` and the ignored low address bits D9 (log entry 16); the `MEM_FAULT` after-state
keeps `pc` by D24, and its signals and reports are the model's, log entry 15 (DEDUCED, unsafe). `signExt` = 1 is D19. -/
def Obligations.NarrowStoresClearTheRest : Prop :=
  ∀ (rt rs : Reg) (imm : BitVec 16),
    Encoded (wordI 0x28#6 rs rt imm) (.sb rt rs imm) ∧ StoreOf (.sb rt rs imm) 0x000000FF#32 rt rs imm ∧
    Encoded (wordI 0x29#6 rs rt imm) (.sh rt rs imm) ∧ StoreOf (.sh rt rs imm) 0x0000FFFF#32 rt rs imm

/-- `sw`: the word becomes rt.
The numeric opcodes are D3, `MEM_FAULT` and the ignored low address bits D9 (log entry 16); the `MEM_FAULT` after-state
keeps `pc` by D24, and its signals and reports are the model's, log entry 15 (DEDUCED, unsafe). `signExt` = 1 is D19. -/
def Obligations.WordStoreWritesWord : Prop :=
  ∀ (rt rs : Reg) (imm : BitVec 16),
    Encoded (wordI 0x2B#6 rs rt imm) (.sw rt rs imm) ∧ StoreOf (.sw rt rs imm) 0xFFFFFFFF#32 rt rs imm

/-- `j`, `jal`: `pc` goes to the 26-bit field times 4, an absolute word-aligned address below 2^28 (the spec's decision D18);
`jal` links `x[31]`. The numeric opcodes are D3 (log entry 16), and `regDst` = 0 is D35. -/
def Obligations.JumpsAreAbsolute : Prop :=
  ∀ (s : State) (target : BitVec 26),
    Encoded (wordJ 0x02#6 target) (.j target) ∧ Encoded (wordJ 0x03#6 target) (.jal target) ∧
    Runs (.j target) s (wentTo s { jump := true } (BitVec.ofNat 32 (4 * target.toNat))) ∧
    Runs (.jal target) s (linkedTo s { jump := true, regWrite := true } (BitVec.ofNat 32 (4 * target.toNat)))

/-- The optional R-format instructions (all of them the spec's own, D2).
The numeric codes are D3 (log entry 16); the `BAD_REG` after-state keeps `pc` by D24, and its signals and reports are
the model's, log entry 15 (DEDUCED, unsafe). -/
def Obligations.OptionalRegisterResults : Prop :=
  ∀ rd rs rt : Reg,
    EncodedOptional .addu (wordR rs rt rd 0#5 0x21#6) (.addu rd rs rt) ∧
    ResultToRd (.addu rd rs rt) rd (fun s => s.reg rs + s.reg rt) ∧
    EncodedOptional .subu (wordR rs rt rd 0#5 0x23#6) (.subu rd rs rt) ∧
    ResultToRd (.subu rd rs rt) rd (fun s => s.reg rs - s.reg rt) ∧
    EncodedOptional .sltu (wordR rs rt rd 0#5 0x2B#6) (.sltu rd rs rt) ∧
    ResultToRd (.sltu rd rs rt) rd (fun s => if (s.reg rs).toNat < (s.reg rt).toNat then 1#32 else 0#32) ∧
    EncodedOptional .sllv (wordR rs rt rd 0#5 0x04#6) (.sllv rd rt rs) ∧
    ResultToRd (.sllv rd rt rs) rd (fun s => s.reg rt <<< ((s.reg rs).toNat % 32)) ∧
    EncodedOptional .srlv (wordR rs rt rd 0#5 0x06#6) (.srlv rd rt rs) ∧
    ResultToRd (.srlv rd rt rs) rd (fun s => s.reg rt >>> ((s.reg rs).toNat % 32)) ∧
    EncodedOptional .srav (wordR rs rt rd 0#5 0x07#6) (.srav rd rt rs) ∧
    ResultToRd (.srav rd rt rs) rd (fun s => (s.reg rt).sshiftRight ((s.reg rs).toNat % 32))

/-- The optional I-format ALU instructions (all of them the spec's own, D2).
The numeric codes are D3 (log entry 16); the `BAD_REG` after-state keeps `pc` by D24, and its signals and reports are
the model's, log entry 15 (DEDUCED, unsafe). `signExt` = 1 is D19. -/
def Obligations.OptionalImmediateResults : Prop :=
  ∀ (rt rs : Reg) (imm : BitVec 16),
    EncodedOptional .addiu (wordI 0x09#6 rs rt imm) (.addiu rt rs imm) ∧
    ResultToRt (.addiu rt rs imm) rt (fun s => s.reg rs + imm.signExtend 32) ∧
    EncodedOptional .slti (wordI 0x0A#6 rs rt imm) (.slti rt rs imm) ∧
    ResultToRt (.slti rt rs imm) rt (fun s => if (s.reg rs).toInt < imm.toInt then 1#32 else 0#32) ∧
    EncodedOptional .sltiu (wordI 0x0B#6 rs rt imm) (.sltiu rt rs imm) ∧
    ResultToRt (.sltiu rt rs imm) rt (fun s => if (s.reg rs).toNat < (imm.signExtend 32).toNat then 1#32 else 0#32)

/-- The optional loads, identical to `lb` and `lh` (the spec's own, D2 and D10).
The numeric opcodes are D3, `MEM_FAULT` and the ignored low address bits D9 (log entry 16); the `MEM_FAULT` and `BAD_REG`
after-states keep `pc` by D24, and their signals and reports (the address of a load into register 0 among them) are the
model's, log entry 15 (DEDUCED, unsafe). `signExt` = 1 is D19, `regWrite` = 0 D20. -/
def Obligations.OptionalLoadsZeroExtend : Prop :=
  ∀ (rt rs : Reg) (imm : BitVec 16),
    EncodedOptional .lbu (wordI 0x24#6 rs rt imm) (.lbu rt rs imm) ∧ LoadOf (.lbu rt rs imm) 0x000000FF#32 rt rs imm ∧
    EncodedOptional .lhu (wordI 0x25#6 rs rt imm) (.lhu rt rs imm) ∧ LoadOf (.lhu rt rs imm) 0x0000FFFF#32 rt rs imm

/-! ### Frames -/

/-- The instructions with a destination register (all ALU forms, `mfhi`, `mflo`, `lui`, all loads, the optional ones):
every other register, HI, LO, every byte of memory, the parameters and `LAST_ADDR` are unchanged. The next state may
be a faulted one (log entry 5). -/
def Obligations.RegisterResultFrame : Prop :=
  ∀ (i : Instr) (d : Reg) (s t : State), destination i = some d → exec i s = .next t →
    (∀ r, r ≠ d → t.reg r = s.reg r) ∧ KeepsHiLo s t ∧ KeepsMemory s t ∧ KeepsFixed s t

/-- `mthi`, `mtlo`, `mult`, `multu`, `div`, `divu`: no general register and no byte of memory changes; `mthi` keeps LO
and `mtlo` keeps HI. The next state may be a faulted one (log entry 5): the division faults are D8 (log entry 16). -/
def Obligations.HiLoWriterFrame : Prop :=
  ∀ (i : Instr) (s t : State), writesHiLo i = true → exec i s = .next t →
    (∀ r, t.reg r = s.reg r) ∧ KeepsMemory s t ∧ KeepsFixed s t ∧
    (∀ rs, i = .mthi rs → t.lo = s.lo) ∧ (∀ rs, i = .mtlo rs → t.hi = s.hi)

/-- `jr`, `j`, `beq`, `bne`, `syscall`: only `pc` may change, and the run status of a `syscall`. That a syscall
changes no other state is D31 (log entry 16). -/
def Obligations.ControlTransferFrame : Prop :=
  ∀ (s t : State) (i : Instr),
    ((∃ rs, i = .jr rs) ∨ (∃ x, i = .j x) ∨ (∃ rs rt imm, i = .beq rs rt imm) ∨ (∃ rs rt imm, i = .bne rs rt imm) ∨
      i = .syscall) → exec i s = .next t →
    (∀ r, t.reg r = s.reg r) ∧ KeepsHiLo s t ∧ KeepsMemory s t ∧ KeepsFixed s t ∧ (i ≠ .syscall → t.status = s.status)

/-- `jal`, `jalr`: no register but the link register `x[31]` changes, and no HI, LO or memory. The link register is D5
and its number D16 (log entry 16). -/
def Obligations.LinkFrame : Prop :=
  ∀ (s t : State) (i : Instr), ((∃ rs, i = .jalr rs) ∨ (∃ x, i = .jal x)) → exec i s = .next t →
    (∀ r, r ≠ 31#5 → t.reg r = s.reg r) ∧ KeepsHiLo s t ∧ KeepsMemory s t ∧ KeepsFixed s t ∧ t.status = s.status

/-- `sb`, `sh`, `sw`: no register, HI or LO changes, and no byte outside the four of the word that the effective
address names (a store of any width replaces the whole word); where the address is outside the array, no byte at all.
The four addresses of a word and the `MEM_FAULT` outside the array are D9, the replacement of the whole word D11 (log
entry 16). -/
def Obligations.StoreFrame : Prop :=
  ∀ (i : Instr) (rs : Reg) (imm : BitVec 16) (s t : State), storeOperands i = some (rs, imm) → exec i s = .next t →
    (∀ r, t.reg r = s.reg r) ∧ KeepsHiLo s t ∧ KeepsFixed s t ∧
    (∀ ea, effectiveAddress (s.reg rs) imm = ea →
      (∀ a, (a < wordBase s.cfg ea ∨ wordBase s.cfg ea + 4 ≤ a) → t.mem.readByte a = s.mem.readByte a) ∧
      (inArray s.cfg ea = false → KeepsMemory s t))

/-! ### The default parameters -/

/-- At reset the optional set has its default, the empty set (the spec's decision D2): nothing decodes to an optional
instruction, and the word of each is refused by its name. -/
def Obligations.DefaultAdmitsCoreOnly : Prop :=
  (∀ (w : Word) (i : Instr), decode State.reset.cfg w = .ok i → i.optionalOp = none) ∧
  (∀ (i : Instr) (op : OptionalOp), i.optionalOp = some op →
    decode State.reset.cfg (encode i) = .error (.notAdmitted op))
end

