-- ==== Sys2Proof/Laws/Memory.lean ====
section
/-! SUPPORT. Memory: read after write, locality, and the canonical form kept by every write. -/

namespace Sys2Proof.Machine

/-- A write leaves every other byte as it was. -/
theorem Memory.readByte_writeByte_other (m : Memory) (x y : Nat) (v : Byte) (h : y ≠ x) :
    (m.writeByte x v).readByte y = m.readByte y := by
  induction m with
  | nil =>
    by_cases hv : v = Memory.unlisted
    · simp [Memory.writeByte, hv]
    · simp [Memory.writeByte, Memory.readByte, hv, h.symm]
  | cons c rest ih =>
    obtain ⟨a, b⟩ := c
    by_cases hlt : x < a
    · by_cases hv : v = Memory.unlisted <;> simp [Memory.writeByte, Memory.readByte, hlt, hv, h.symm]
    · by_cases heq : x = a
      · subst heq
        by_cases hv : v = Memory.unlisted <;> simp [Memory.writeByte, Memory.readByte, hv, h.symm]
      · simp [Memory.writeByte, Memory.readByte, hlt, heq, ih]

/-- A byte below every listed address is unlisted. -/
theorem Memory.readByte_of_lt (m : Memory) (x : Nat) (h : ∀ c ∈ m, x < c.1) :
    m.readByte x = Memory.unlisted := by
  induction m with
  | nil => rfl
  | cons c rest ih =>
    obtain ⟨a, b⟩ := c
    have ha : a ≠ x := by have := h (a, b) (by simp); omega
    simp [Memory.readByte, ha, ih fun c hc => h c (by simp [hc])]

/-- The tail of a canonical memory is canonical. -/
theorem Memory.wf_tail {c : Host.Cell} {rest : Memory} (h : Memory.wf (c :: rest)) : Memory.wf rest :=
  ⟨(List.pairwise_cons.mp h.1).2, fun d hd => h.2 d (by simp [hd])⟩

/-- A write is read back. -/
theorem Memory.readByte_writeByte_same (m : Memory) (x : Nat) (v : Byte) (h : m.wf) :
    (m.writeByte x v).readByte x = v := by
  induction m with
  | nil =>
    by_cases hv : v = Memory.unlisted
    · simp [Memory.writeByte, Memory.readByte, hv]
    · simp [Memory.writeByte, Memory.readByte, hv]
  | cons c rest ih =>
    obtain ⟨a, b⟩ := c
    have hrise : ∀ d ∈ rest, a < d.1 := (List.pairwise_cons.mp h.1).1
    by_cases hlt : x < a
    · by_cases hv : v = Memory.unlisted
      · have hne : a ≠ x := by omega
        have := Memory.readByte_of_lt rest x fun d hd => by have := hrise d hd; omega
        simp [Memory.writeByte, Memory.readByte, hlt, hv, hne, this]
      · simp [Memory.writeByte, Memory.readByte, hlt, hv]
    · by_cases heq : x = a
      · subst heq
        by_cases hv : v = Memory.unlisted
        · simp [Memory.writeByte, hv, Memory.readByte_of_lt rest x hrise]
        · simp [Memory.writeByte, Memory.readByte, hv]
      · have hne : a ≠ x := fun e => heq e.symm
        simp [Memory.writeByte, Memory.readByte, hlt, heq, hne, ih (Memory.wf_tail h)]

/-- Where the entries of a written memory come from. -/
theorem Memory.mem_writeByte {m : Memory} {x : Nat} {v : Byte} {c : Host.Cell} (h : c ∈ m.writeByte x v) :
    c ∈ m ∨ (c = (x, v) ∧ v ≠ Memory.unlisted) := by
  induction m with
  | nil =>
    by_cases hv : v = Memory.unlisted <;> simp_all [Memory.writeByte]
  | cons d rest ih =>
    obtain ⟨a, b⟩ := d
    unfold Memory.writeByte at h
    split at h
    · split at h
      · exact .inl h
      · rcases List.mem_cons.mp h with e | e
        · exact .inr ⟨e, by assumption⟩
        · exact .inl e
    · split at h
      · split at h
        · exact .inl (List.mem_cons_of_mem _ h)
        · rcases List.mem_cons.mp h with e | e
          · exact .inr ⟨e, by assumption⟩
          · exact .inl (List.mem_cons_of_mem _ e)
      · rcases List.mem_cons.mp h with e | e
        · exact .inl (by simp [e])
        · rcases ih e with e | e
          · exact .inl (List.mem_cons_of_mem _ e)
          · exact .inr e

/-- A byte write keeps the canonical form. -/
theorem Memory.wf_writeByte (m : Memory) (x : Nat) (v : Byte) (h : m.wf) : (m.writeByte x v).wf := by
  refine ⟨?_, fun c hc => ?_⟩
  · induction m with
    | nil => by_cases hv : v = Memory.unlisted <;> simp [Memory.writeByte, hv]
    | cons d rest ih =>
      obtain ⟨a, b⟩ := d
      have hp := List.pairwise_cons.mp h.1
      unfold Memory.writeByte
      split
      · rename_i hlt
        split
        · exact h.1
        · refine List.pairwise_cons.mpr ⟨fun c hc => ?_, h.1⟩
          rcases List.mem_cons.mp hc with e | e
          · simpa [e] using hlt
          · have := hp.1 c e; simp only; omega
      · split
        · rename_i heq
          split
          · exact hp.2
          · exact List.pairwise_cons.mpr ⟨fun c hc => by have := hp.1 c hc; omega, hp.2⟩
        · refine List.pairwise_cons.mpr ⟨fun c hc => ?_, ih (Memory.wf_tail h)⟩
          rcases Memory.mem_writeByte hc with e | e
          · exact hp.1 c e
          · rw [e.1]; simp only; omega
  · rcases Memory.mem_writeByte hc with e | e
    · exact h.2 c e
    · rw [e.1]; exact e.2

/-- A word write keeps the canonical form. -/
theorem Memory.wf_writeWord (m : Memory) (a : Nat) (w : Word) (h : m.wf) : (m.writeWord a w).wf := by
  simp only [Memory.writeWord]
  exact Memory.wf_writeByte _ _ _ (Memory.wf_writeByte _ _ _ (Memory.wf_writeByte _ _ _ (Memory.wf_writeByte _ _ _ h)))

/-- The reset memory is in canonical form. -/
theorem Memory.wf_nil : Memory.wf [] := ⟨.nil, fun _ h => nomatch h⟩

/-- A word write leaves every byte outside the word as it was. -/
theorem Memory.readByte_writeWord_other (m : Memory) (a x : Nat) (w : Word) (h : x < a ∨ a + 4 ≤ x) :
    (m.writeWord a w).readByte x = m.readByte x := by
  simp only [Memory.writeWord]
  repeat rw [Memory.readByte_writeByte_other _ _ _ _ (by omega)]

/-- Each byte of a written word is read back. -/
theorem Memory.readByte_writeWord_same (m : Memory) (a : Nat) (w : Word) (h : m.wf) :
    (m.writeWord a w).readByte a = byte0 w ∧ (m.writeWord a w).readByte (a + 1) = byte1 w ∧
    (m.writeWord a w).readByte (a + 2) = byte2 w ∧ (m.writeWord a w).readByte (a + 3) = byte3 w := by
  have h0 := Memory.wf_writeByte m a (byte0 w) h
  have h1 := Memory.wf_writeByte _ (a + 1) (byte1 w) h0
  have h2 := Memory.wf_writeByte _ (a + 2) (byte2 w) h1
  simp only [Memory.writeWord]
  refine ⟨?_, ?_, ?_, ?_⟩
  · rw [Memory.readByte_writeByte_other _ _ _ _ (by omega), Memory.readByte_writeByte_other _ _ _ _ (by omega),
      Memory.readByte_writeByte_other _ _ _ _ (by omega), Memory.readByte_writeByte_same _ _ _ h]
  · rw [Memory.readByte_writeByte_other _ _ _ _ (by omega), Memory.readByte_writeByte_other _ _ _ _ (by omega),
      Memory.readByte_writeByte_same _ _ _ h0]
  · rw [Memory.readByte_writeByte_other _ _ _ _ (by omega), Memory.readByte_writeByte_same _ _ _ h1]
  · rw [Memory.readByte_writeByte_same _ _ _ h2]

/-- The four bytes of a word make the word. -/
theorem wordOfBytes_bytes (w : Word) : wordOfBytes (byte0 w) (byte1 w) (byte2 w) (byte3 w) = w := by
  apply BitVec.eq_of_toNat_eq
  simp only [wordOfBytes, byte0, byte1, byte2, byte3, BitVec.toNat_append, BitVec.extractLsb'_toNat,
    Nat.shiftLeft_eq, Nat.shiftRight_eq_div_pow]
  rw [← Nat.shiftLeft_eq, ← Nat.shiftLeft_eq, ← Nat.shiftLeft_eq,
    ← Nat.shiftLeft_add_eq_or_of_lt (by omega), ← Nat.shiftLeft_add_eq_or_of_lt (by omega),
    ← Nat.shiftLeft_add_eq_or_of_lt (by omega)]
  simp only [Nat.shiftLeft_eq]
  have := w.isLt
  omega

/-- A written word is read back. -/
theorem Memory.readWord_writeWord_same (m : Memory) (a : Nat) (w : Word) (h : m.wf) :
    (m.writeWord a w).readWord a = w := by
  obtain ⟨h0, h1, h2, h3⟩ := Memory.readByte_writeWord_same m a w h
  simp only [Memory.readWord, h0, h1, h2, h3, wordOfBytes_bytes]

/-- A word that shares no byte with the written one is read as before. -/
theorem Memory.readWord_writeWord_other (m : Memory) (a b : Nat) (w : Word) (h : b + 4 ≤ a ∨ a + 4 ≤ b) :
    (m.writeWord a w).readWord b = m.readWord b := by
  simp only [Memory.readWord]
  repeat rw [Memory.readByte_writeWord_other _ _ _ _ (by omega)]

/-- The entries of a memory with a word written: old ones, or bytes of the word. -/
theorem Memory.mem_writeWord {m : Memory} {a : Nat} {w : Word} {c : Host.Cell} (h : c ∈ m.writeWord a w) :
    c ∈ m ∨ (a ≤ c.1 ∧ c.1 < a + 4) := by
  simp only [Memory.writeWord] at h
  rcases Memory.mem_writeByte h with h | ⟨h, -⟩
  · rcases Memory.mem_writeByte h with h | ⟨h, -⟩
    · rcases Memory.mem_writeByte h with h | ⟨h, -⟩
      · rcases Memory.mem_writeByte h with h | ⟨h, -⟩
        · exact .inl h
        · exact .inr (by simp [h])
      · exact .inr (by simp [h])
    · exact .inr (by simp [h])
  · exact .inr (by simp [h])

/-- The valid addresses, as inequalities (R51). -/
theorem inArray_iff {c : Config} {addr : Word} :
    inArray c addr = true ↔ c.textBase.toNat ≤ addr.toNat ∧ addr.toNat < arrayEnd c := by
  simp [inArray]

/-- The word that a valid address names lies inside the array (R51, R52). -/
theorem wordBase_bounds {c : Config} {addr : Word} (h : inArray c addr = true) :
    c.textBase.toNat ≤ wordBase c addr ∧ wordBase c addr + 4 ≤ arrayEnd c := by
  obtain ⟨h1, h2⟩ := inArray_iff.mp h
  simp only [arrayEnd] at h2
  simp only [wordBase, wordAddress, wordIndex, arrayEnd]
  omega

/-- Two addresses name one word, or words that share no byte (R52). -/
theorem wordBase_disjoint (c : Config) (x y : Word) :
    wordBase c x = wordBase c y ∨ wordBase c x + 4 ≤ wordBase c y ∨ wordBase c y + 4 ≤ wordBase c x := by
  simp only [wordBase, wordAddress]
  omega

end Sys2Proof.Machine
end

