-- ==== Sys2Proof/Laws/State.lean ====
section
/-! SUPPORT. One lemma per field per update of the state, true by rfl, so that no later proof unfolds a record update. -/

namespace Sys2Proof.Machine

@[simp] theorem State.raise_cfg (s : State) (f : CoreFault) : (s.raise f).cfg = s.cfg := rfl
@[simp] theorem State.raise_regs (s : State) (f : CoreFault) : (s.raise f).regs = s.regs := rfl
@[simp] theorem State.raise_hi (s : State) (f : CoreFault) : (s.raise f).hi = s.hi := rfl
@[simp] theorem State.raise_lo (s : State) (f : CoreFault) : (s.raise f).lo = s.lo := rfl
@[simp] theorem State.raise_pc (s : State) (f : CoreFault) : (s.raise f).pc = s.pc := rfl
@[simp] theorem State.raise_pcMirror (s : State) (f : CoreFault) : (s.raise f).pcMirror = s.pcMirror := rfl
@[simp] theorem State.raise_lastAddr (s : State) (f : CoreFault) : (s.raise f).lastAddr = s.lastAddr := rfl
@[simp] theorem State.raise_signals (s : State) (f : CoreFault) : (s.raise f).signals = { s.signals with error := some f } := rfl
@[simp] theorem State.raise_changedAddr (s : State) (f : CoreFault) : (s.raise f).changedAddr = s.changedAddr := rfl
@[simp] theorem State.raise_changedReg (s : State) (f : CoreFault) : (s.raise f).changedReg = s.changedReg := rfl
@[simp] theorem State.raise_mem (s : State) (f : CoreFault) : (s.raise f).mem = s.mem := rfl
@[simp] theorem State.raise_status (s : State) (f : CoreFault) : (s.raise f).status = .faulted f := rfl

@[simp] theorem State.beginCycle_cfg (s : State) : (s.beginCycle).cfg = s.cfg := rfl
@[simp] theorem State.beginCycle_regs (s : State) : (s.beginCycle).regs = s.regs := rfl
@[simp] theorem State.beginCycle_hi (s : State) : (s.beginCycle).hi = s.hi := rfl
@[simp] theorem State.beginCycle_lo (s : State) : (s.beginCycle).lo = s.lo := rfl
@[simp] theorem State.beginCycle_pc (s : State) : (s.beginCycle).pc = s.pc := rfl
@[simp] theorem State.beginCycle_pcMirror (s : State) : (s.beginCycle).pcMirror = s.pcMirror := rfl
@[simp] theorem State.beginCycle_lastAddr (s : State) : (s.beginCycle).lastAddr = s.lastAddr := rfl
@[simp] theorem State.beginCycle_signals (s : State) : (s.beginCycle).signals = ControlSignals.cleared := rfl
@[simp] theorem State.beginCycle_changedAddr (s : State) : (s.beginCycle).changedAddr = none := rfl
@[simp] theorem State.beginCycle_changedReg (s : State) : (s.beginCycle).changedReg = none := rfl
@[simp] theorem State.beginCycle_mem (s : State) : (s.beginCycle).mem = s.mem := rfl
@[simp] theorem State.beginCycle_status (s : State) : (s.beginCycle).status = s.status := rfl

@[simp] theorem State.executed_cfg (s : State) (g : ControlSignals) : (s.executed g).cfg = s.cfg := rfl
@[simp] theorem State.executed_regs (s : State) (g : ControlSignals) : (s.executed g).regs = s.regs := rfl
@[simp] theorem State.executed_hi (s : State) (g : ControlSignals) : (s.executed g).hi = s.hi := rfl
@[simp] theorem State.executed_lo (s : State) (g : ControlSignals) : (s.executed g).lo = s.lo := rfl
@[simp] theorem State.executed_pc (s : State) (g : ControlSignals) : (s.executed g).pc = s.pc := rfl
@[simp] theorem State.executed_pcMirror (s : State) (g : ControlSignals) : (s.executed g).pcMirror = s.pcMirror := rfl
@[simp] theorem State.executed_lastAddr (s : State) (g : ControlSignals) : (s.executed g).lastAddr = s.lastAddr := rfl
@[simp] theorem State.executed_signals (s : State) (g : ControlSignals) : (s.executed g).signals = g := rfl
@[simp] theorem State.executed_changedAddr (s : State) (g : ControlSignals) : (s.executed g).changedAddr = none := rfl
@[simp] theorem State.executed_changedReg (s : State) (g : ControlSignals) : (s.executed g).changedReg = none := rfl
@[simp] theorem State.executed_mem (s : State) (g : ControlSignals) : (s.executed g).mem = s.mem := rfl
@[simp] theorem State.executed_status (s : State) (g : ControlSignals) : (s.executed g).status = s.status := rfl

@[simp] theorem State.link_cfg (s : State) : (s.link).cfg = s.cfg := rfl
@[simp] theorem State.link_regs (s : State) : (s.link).regs = s.regs.set 31 (linkValue s.pc) := rfl
@[simp] theorem State.link_hi (s : State) : (s.link).hi = s.hi := rfl
@[simp] theorem State.link_lo (s : State) : (s.link).lo = s.lo := rfl
@[simp] theorem State.link_pc (s : State) : (s.link).pc = s.pc := rfl
@[simp] theorem State.link_pcMirror (s : State) : (s.link).pcMirror = s.pcMirror := rfl
@[simp] theorem State.link_lastAddr (s : State) : (s.link).lastAddr = s.lastAddr := rfl
@[simp] theorem State.link_signals (s : State) : (s.link).signals = s.signals := rfl
@[simp] theorem State.link_changedAddr (s : State) : (s.link).changedAddr = s.changedAddr := rfl
@[simp] theorem State.link_changedReg (s : State) : (s.link).changedReg = s.changedReg := rfl
@[simp] theorem State.link_mem (s : State) : (s.link).mem = s.mem := rfl
@[simp] theorem State.link_status (s : State) : (s.link).status = s.status := rfl

@[simp] theorem State.updatePc_cfg (s : State) (r : Word) : (s.updatePc r).cfg = s.cfg := rfl
@[simp] theorem State.updatePc_regs (s : State) (r : Word) : (s.updatePc r).regs = s.regs := rfl
@[simp] theorem State.updatePc_hi (s : State) (r : Word) : (s.updatePc r).hi = s.hi := rfl
@[simp] theorem State.updatePc_lo (s : State) (r : Word) : (s.updatePc r).lo = s.lo := rfl
@[simp] theorem State.updatePc_pc (s : State) (r : Word) : (s.updatePc r).pc = if s.signals.branch || s.signals.jump then r else s.pc + 4#32 := rfl
@[simp] theorem State.updatePc_pcMirror (s : State) (r : Word) : (s.updatePc r).pcMirror = if s.signals.branch || s.signals.jump then r else s.pc + 4#32 := rfl
@[simp] theorem State.updatePc_lastAddr (s : State) (r : Word) : (s.updatePc r).lastAddr = s.lastAddr := rfl
@[simp] theorem State.updatePc_signals (s : State) (r : Word) : (s.updatePc r).signals = s.signals := rfl
@[simp] theorem State.updatePc_changedAddr (s : State) (r : Word) : (s.updatePc r).changedAddr = s.changedAddr := rfl
@[simp] theorem State.updatePc_changedReg (s : State) (r : Word) : (s.updatePc r).changedReg = s.changedReg := rfl
@[simp] theorem State.updatePc_mem (s : State) (r : Word) : (s.updatePc r).mem = s.mem := rfl
@[simp] theorem State.updatePc_status (s : State) (r : Word) : (s.updatePc r).status = s.status := rfl

@[simp] theorem State.endOfProgram_cfg (s : State) : (s.endOfProgram).cfg = s.cfg := rfl
@[simp] theorem State.endOfProgram_regs (s : State) : (s.endOfProgram).regs = s.regs := rfl
@[simp] theorem State.endOfProgram_hi (s : State) : (s.endOfProgram).hi = s.hi := rfl
@[simp] theorem State.endOfProgram_lo (s : State) : (s.endOfProgram).lo = s.lo := rfl
@[simp] theorem State.endOfProgram_pc (s : State) : (s.endOfProgram).pc = s.pc := rfl
@[simp] theorem State.endOfProgram_pcMirror (s : State) : (s.endOfProgram).pcMirror = s.pcMirror := rfl
@[simp] theorem State.endOfProgram_lastAddr (s : State) : (s.endOfProgram).lastAddr = s.lastAddr := rfl
@[simp] theorem State.endOfProgram_signals (s : State) : (s.endOfProgram).signals = ControlSignals.cleared := rfl
@[simp] theorem State.endOfProgram_changedAddr (s : State) : (s.endOfProgram).changedAddr = none := rfl
@[simp] theorem State.endOfProgram_changedReg (s : State) : (s.endOfProgram).changedReg = none := rfl
@[simp] theorem State.endOfProgram_mem (s : State) : (s.endOfProgram).mem = s.mem := rfl
@[simp] theorem State.endOfProgram_status (s : State) : (s.endOfProgram).status = .haltedEnd := rfl

@[simp] theorem State.placeWord_cfg (s : State) (w : Word) : (s.placeWord w).cfg = s.cfg := rfl
@[simp] theorem State.placeWord_regs (s : State) (w : Word) : (s.placeWord w).regs = s.regs := rfl
@[simp] theorem State.placeWord_hi (s : State) (w : Word) : (s.placeWord w).hi = s.hi := rfl
@[simp] theorem State.placeWord_lo (s : State) (w : Word) : (s.placeWord w).lo = s.lo := rfl
@[simp] theorem State.placeWord_pc (s : State) (w : Word) : (s.placeWord w).pc = s.fetchSlot := rfl
@[simp] theorem State.placeWord_pcMirror (s : State) (w : Word) : (s.placeWord w).pcMirror = s.fetchSlot := rfl
@[simp] theorem State.placeWord_lastAddr (s : State) (w : Word) : (s.placeWord w).lastAddr = s.lastAddrWith s.fetchSlot := rfl
@[simp] theorem State.placeWord_signals (s : State) (w : Word) : (s.placeWord w).signals = s.signals := rfl
@[simp] theorem State.placeWord_changedAddr (s : State) (w : Word) : (s.placeWord w).changedAddr = s.changedAddr := rfl
@[simp] theorem State.placeWord_changedReg (s : State) (w : Word) : (s.placeWord w).changedReg = s.changedReg := rfl
@[simp] theorem State.placeWord_mem (s : State) (w : Word) : (s.placeWord w).mem = s.mem.writeWord (wordBase s.cfg s.fetchSlot) w := rfl
@[simp] theorem State.placeWord_status (s : State) (w : Word) : (s.placeWord w).status = .running := rfl

@[simp] theorem State.syscallHalt_cfg (s : State) : s.syscallHalt.cfg = s.cfg := by
  unfold State.syscallHalt; split <;> (try split) <;> (try split) <;> rfl
@[simp] theorem State.syscallHalt_regs (s : State) : s.syscallHalt.regs = s.regs := by
  unfold State.syscallHalt; split <;> (try split) <;> (try split) <;> rfl
@[simp] theorem State.syscallHalt_hi (s : State) : s.syscallHalt.hi = s.hi := by
  unfold State.syscallHalt; split <;> (try split) <;> (try split) <;> rfl
@[simp] theorem State.syscallHalt_lo (s : State) : s.syscallHalt.lo = s.lo := by
  unfold State.syscallHalt; split <;> (try split) <;> (try split) <;> rfl
@[simp] theorem State.syscallHalt_pc (s : State) : s.syscallHalt.pc = s.pc := by
  unfold State.syscallHalt; split <;> (try split) <;> (try split) <;> rfl
@[simp] theorem State.syscallHalt_pcMirror (s : State) : s.syscallHalt.pcMirror = s.pcMirror := by
  unfold State.syscallHalt; split <;> (try split) <;> (try split) <;> rfl
@[simp] theorem State.syscallHalt_lastAddr (s : State) : s.syscallHalt.lastAddr = s.lastAddr := by
  unfold State.syscallHalt; split <;> (try split) <;> (try split) <;> rfl
@[simp] theorem State.syscallHalt_signals (s : State) : s.syscallHalt.signals = s.signals := by
  unfold State.syscallHalt; split <;> (try split) <;> (try split) <;> rfl
@[simp] theorem State.syscallHalt_changedAddr (s : State) : s.syscallHalt.changedAddr = s.changedAddr := by
  unfold State.syscallHalt; split <;> (try split) <;> (try split) <;> rfl
@[simp] theorem State.syscallHalt_changedReg (s : State) : s.syscallHalt.changedReg = s.changedReg := by
  unfold State.syscallHalt; split <;> (try split) <;> (try split) <;> rfl
@[simp] theorem State.syscallHalt_mem (s : State) : s.syscallHalt.mem = s.mem := by
  unfold State.syscallHalt; split <;> (try split) <;> (try split) <;> rfl

/-- The halt check changes the status only for a syscall with number 10 or 17 (R212). -/
theorem State.syscallHalt_of_not_valid (s : State) (h : s.signals.syscallValid = false) : s.syscallHalt = s := by
  simp [State.syscallHalt, h]

/-- What the halt check makes of the status (R212). -/
theorem State.syscallHalt_status_cases (s : State) :
    s.syscallHalt.status = s.status ∨ ∃ code, s.syscallHalt.status = .haltedExit code := by
  unfold State.syscallHalt
  split
  · split
    · exact .inr ⟨_, rfl⟩
    · split
      · exact .inr ⟨_, rfl⟩
      · exact .inl rfl
  · exact .inl rfl

@[simp] theorem State.admitting_cfg (s : State) (w : Word) : (s.admitting w).cfg = s.cfg.admitting w := rfl
@[simp] theorem State.admitting_regs (s : State) (w : Word) : (s.admitting w).regs = s.regs := rfl
@[simp] theorem State.admitting_hi (s : State) (w : Word) : (s.admitting w).hi = s.hi := rfl
@[simp] theorem State.admitting_lo (s : State) (w : Word) : (s.admitting w).lo = s.lo := rfl
@[simp] theorem State.admitting_pc (s : State) (w : Word) : (s.admitting w).pc = s.pc := rfl
@[simp] theorem State.admitting_pcMirror (s : State) (w : Word) : (s.admitting w).pcMirror = s.pcMirror := rfl
@[simp] theorem State.admitting_lastAddr (s : State) (w : Word) : (s.admitting w).lastAddr = s.lastAddr := rfl
@[simp] theorem State.admitting_signals (s : State) (w : Word) : (s.admitting w).signals = s.signals := rfl
@[simp] theorem State.admitting_changedAddr (s : State) (w : Word) : (s.admitting w).changedAddr = s.changedAddr := rfl
@[simp] theorem State.admitting_changedReg (s : State) (w : Word) : (s.admitting w).changedReg = s.changedReg := rfl
@[simp] theorem State.admitting_mem (s : State) (w : Word) : (s.admitting w).mem = s.mem := rfl
@[simp] theorem State.admitting_status (s : State) (w : Word) : (s.admitting w).status = s.status := rfl

end Sys2Proof.Machine
end

