-- ==== Sys2Proof/Laws/Registers.lean ====
section
/-! SUPPORT. Reads and writes of the general registers (R20, R21, R137). -/

namespace Sys2Proof.Machine

/-- `x[0]` reads zero (R21). -/
@[simp] theorem State.reg_zero (s : State) : s.reg 0#5 = 0#32 := rfl

/-- A read depends on the register file alone. -/
theorem State.reg_congr {s t : State} (h : t.regs = s.regs) (r : Reg) : t.reg r = s.reg r := by
  simp [State.reg, h]

/-- Reading the register just set. -/
theorem State.reg_set_same (s : State) (d : Reg) (v : Word) (h : d ≠ 0#5) :
    ({ s with regs := s.regs.set d.toNat v d.isLt } : State).reg d = v := by
  simp [State.reg, h]

/-- Reading another register. -/
theorem State.reg_set_other (s : State) (d r : Reg) (v : Word) (h : r ≠ d) :
    ({ s with regs := s.regs.set d.toNat v d.isLt } : State).reg r = s.reg r := by
  have h' : d.toNat ≠ r.toNat := fun e => h (BitVec.eq_of_toNat_eq e.symm)
  simp [State.reg, h']

/-- A commit to index 0 is `BAD_REG` (R137). -/
@[simp] theorem State.commit_zero (s : State) (v : Word) : s.commit 0 v = .error (.badReg 0) := by
  simp [State.commit]

/-- A commit to a register other than 0 (R137). -/
theorem State.commit_reg (s : State) (d : Reg) (v : Word) (h : d ≠ 0#5) :
    s.commit d.toNat v = .ok { s with regs := s.regs.set d.toNat v d.isLt, changedReg := some d } := by
  have h0 : d.toNat ≠ 0 := fun e => h (BitVec.eq_of_toNat_eq e)
  have h1 : ¬ 31 < d.toNat := by have := d.isLt; omega
  simp [State.commit, h0, h1]

/-- Everything a commit of a register field can do: `BAD_REG` with index 0, or one register written. -/
theorem State.commit_cases (s : State) (d : Reg) (v : Word) :
    (d = 0#5 ∧ s.commit d.toNat v = .error (.badReg 0)) ∨
    (d ≠ 0#5 ∧ s.commit d.toNat v =
      .ok { s with regs := s.regs.set d.toNat v d.isLt, changedReg := some d }) := by
  by_cases h : d = 0#5
  · exact .inl ⟨h, by subst h; exact s.commit_zero v⟩
  · exact .inr ⟨h, s.commit_reg d v h⟩

/-- The link commit writes `x[31]` and no other register (R127). -/
@[simp] theorem State.link_reg (s : State) (r : Reg) :
    s.link.reg r = if r = Reg.ra then s.pc + 4#32 else s.reg r := by
  unfold State.reg
  by_cases h : r = Reg.ra
  · have hne : Reg.ra ≠ Reg.zero := by decide
    subst h; simp [State.link, linkValue, hne]
  · have h' : ¬ 31 = r.toNat := fun e => h (BitVec.eq_of_toNat_eq (by simpa using e.symm))
    simp [h, h']

end Sys2Proof.Machine
end

