-- ==== Sys2Proof/Laws/Stages.lean ====
section
/-! SUPPORT. What a cycle does after execute, said once for each kind of signal set (R126), and once for any signals
(`finishCycle_cases`). The proofs about meanings cite these and never unfold a stage. -/

namespace Sys2Proof.Machine

/-- What an executed state keeps. -/
@[simp] theorem State.reg_executed (s : State) (g : ControlSignals) (r : Reg) : (s.executed g).reg r = s.reg r := rfl
@[simp] theorem State.reg_raise (s : State) (f : CoreFault) (r : Reg) : (s.raise f).reg r = s.reg r := rfl
@[simp] theorem State.reg_updatePc (s : State) (v : Word) (r : Reg) : (s.updatePc v).reg r = s.reg r := rfl
@[simp] theorem State.reg_beginCycle (s : State) (r : Reg) : s.beginCycle.reg r = s.reg r := rfl
@[simp] theorem State.reg_syscallHalt (s : State) (r : Reg) : s.syscallHalt.reg r = s.reg r :=
  State.reg_congr s.syscallHalt_regs r

/-- `MemRead` at a valid address (R57). -/
theorem State.memRead_ok {s : State} {a : Word} (mask : Word) (h : inArray s.cfg a = true) :
    s.memRead a mask = .ok (s.mem.readWord (wordBase s.cfg a) &&& mask) := by simp [State.memRead, h]

/-- `MemRead` outside the array (R57). -/
theorem State.memRead_fault {s : State} {a : Word} (mask : Word) (h : inArray s.cfg a = false) :
    s.memRead a mask = .error (.memFault a) := by simp [State.memRead, h]

/-- `MemWrite` at a valid address (R58). -/
theorem State.memWrite_ok {s : State} {a : Word} (mask v : Word) (h : inArray s.cfg a = true) :
    s.memWrite a mask v = .ok { s with mem := s.mem.writeWord (wordBase s.cfg a) (v &&& mask) } := by
  simp [State.memWrite, h]

/-- `MemWrite` outside the array (R58). -/
theorem State.memWrite_fault {s : State} {a : Word} (mask v : Word) (h : inArray s.cfg a = false) :
    s.memWrite a mask v = .error (.memFault a) := by simp [State.memWrite, h]

/-- Everything the memory stage can do (R59): a fault with the address, a write of the whole word, a read, or nothing. -/
theorem State.memoryStage_cases (s : State) (result rtv : Word) :
    (s.memoryStage result rtv = .error (.memFault result)) ∨
    (s.signals.memWrite = true ∧ inArray s.cfg result = true ∧ s.memoryStage result rtv =
      .ok ({ s with mem := s.mem.writeWord (wordBase s.cfg result) (rtv &&& s.signals.widthMask),
                    changedAddr := some result }, result)) ∨
    (s.signals.memWrite = false ∧ ∃ ca v, s.memoryStage result rtv = .ok ({ s with changedAddr := ca }, v)) := by
  cases hw : s.signals.memWrite
  · cases hr : s.signals.memRead
    · exact .inr (.inr ⟨rfl, none, result, by simp [State.memoryStage, hw, hr]⟩)
    · cases ha : inArray s.cfg result
      · exact .inl (by simp [State.memoryStage, hw, hr, State.memRead_fault _ ha])
      · exact .inr (.inr ⟨rfl, some result, _, by simp [State.memoryStage, hw, hr, State.memRead_ok _ ha]; rfl⟩)
  · cases ha : inArray s.cfg result
    · exact .inl (by simp [State.memoryStage, hw, State.memWrite_fault _ _ ha])
    · exact .inr (.inl ⟨rfl, rfl, by simp [State.memoryStage, hw, State.memWrite_ok _ _ ha]⟩)

/-- Everything the register-write stage can do (R136): `BAD_REG` with index 0, one register of the two slots written,
or no register written. -/
theorem State.registerWrite_cases (s : State) (rd rt : Reg) (v : Word) :
    (s.registerWrite rd rt v = .error (.badReg 0)) ∨
    (∃ d : Reg, d ≠ 0#5 ∧ (d = rd ∨ d = rt) ∧ s.registerWrite rd rt v =
      .ok { s with regs := s.regs.set d.toNat v d.isLt, changedReg := some d }) ∨
    (∃ cr, s.registerWrite rd rt v = .ok { s with changedReg := cr }) := by
  have commitCase (d : Reg) (hd : d = rd ∨ d = rt) (h : s.registerWrite rd rt v = s.commit d.toNat v) :
      (s.registerWrite rd rt v = .error (.badReg 0)) ∨
      (∃ d : Reg, d ≠ 0#5 ∧ (d = rd ∨ d = rt) ∧ s.registerWrite rd rt v =
        .ok { s with regs := s.regs.set d.toNat v d.isLt, changedReg := some d }) ∨
      (∃ cr, s.registerWrite rd rt v = .ok { s with changedReg := cr }) := by
    rcases s.commit_cases d v with ⟨-, e⟩ | ⟨hd0, e⟩
    · exact .inl (h.trans e)
    · exact .inr (.inl ⟨d, hd0, hd, h.trans e⟩)
  by_cases h1 : (!(s.signals.regWrite || s.signals.memToReg)) = true
  · exact .inr (.inr ⟨none, by simp only [State.registerWrite, h1, if_true]⟩)
  by_cases h2 : (s.signals.memToReg && s.signals.memRead) = true
  · exact commitCase rt (.inr rfl) (by simp only [State.registerWrite, h1, h2, if_true]; rfl)
  by_cases h3 : (s.signals.jump && s.signals.regWrite) = true
  · exact .inr (.inr ⟨some Reg.ra, by simp only [State.registerWrite, h1, h2, h3, if_true]; rfl⟩)
  by_cases h4 : s.signals.regDst = true
  · exact commitCase rd (.inl rfl) (by simp only [State.registerWrite, h1, h2, h3, h4, if_true]; rfl)
  · exact commitCase rt (.inr rfl) (by simp only [State.registerWrite, h1, h2, h3, h4]; rfl)

end Sys2Proof.Machine
end

