-- ==== Sys2Proof/Laws/Cycle.lean ====
section
/-! SUPPORT. What the stages after execute make of each row of control signals (R126), as whole states. The lemmas of a
meaning cite these. -/

namespace Sys2Proof.Machine

/-- A result for rd, rd other than 0 (R136, R140). -/
theorem State.finishCycle_rResult (s : State) (rd rt : Reg) (rtv v : Word) (h : rd ≠ 0#5) :
    s.finishCycle rd rt rtv Signals.rResult v =
      { s with regs := s.regs.set rd.toNat v rd.isLt, pc := s.pc + 4#32, pcMirror := s.pc + 4#32,
               signals := Signals.rResult, changedAddr := none, changedReg := some rd } := by
  simp [State.finishCycle, State.memoryStage, State.registerWrite, writeValue, Signals.rResult, State.executed,
    State.commit_reg _ _ _ h, State.updatePc, State.syscallHalt]

/-- A result for rd = 0: `BAD_REG` (R137, R138). -/
theorem State.finishCycle_rResult_zero (s : State) (rt : Reg) (rtv v : Word) :
    s.finishCycle 0#5 rt rtv Signals.rResult v = (s.executed Signals.rResult).raise (.badReg 0) := by
  simp [State.finishCycle, State.memoryStage, State.registerWrite, Signals.rResult, State.executed, State.raise]

/-- A result for rt, rt other than 0 (R136, R140). -/
theorem State.finishCycle_iResult (s : State) (rd rt : Reg) (rtv v : Word) (h : rt ≠ 0#5) :
    s.finishCycle rd rt rtv Signals.iResult v =
      { s with regs := s.regs.set rt.toNat v rt.isLt, pc := s.pc + 4#32, pcMirror := s.pc + 4#32,
               signals := Signals.iResult, changedAddr := none, changedReg := some rt } := by
  simp [State.finishCycle, State.memoryStage, State.registerWrite, writeValue, Signals.iResult, State.executed,
    State.commit_reg _ _ _ h, State.updatePc, State.syscallHalt]

/-- A result for rt = 0: `BAD_REG` (R137, R138). -/
theorem State.finishCycle_iResult_zero (s : State) (rd : Reg) (rtv v : Word) :
    s.finishCycle rd 0#5 rtv Signals.iResult v = (s.executed Signals.iResult).raise (.badReg 0) := by
  simp [State.finishCycle, State.memoryStage, State.registerWrite, Signals.iResult, State.executed, State.raise]

/-- A load from a valid address into rt other than 0 (R59, R135, R136). -/
theorem State.finishCycle_load (s : State) (rd rt : Reg) (rtv ea mask : Word) (ha : inArray s.cfg ea = true)
    (h : rt ≠ 0#5) :
    s.finishCycle rd rt rtv (Signals.load mask) ea =
      { s with regs := s.regs.set rt.toNat (s.mem.readWord (wordBase s.cfg ea) &&& mask) rt.isLt,
               pc := s.pc + 4#32, pcMirror := s.pc + 4#32, signals := Signals.load mask,
               changedAddr := some ea, changedReg := some rt } := by
  simp [State.finishCycle, State.memoryStage, State.registerWrite, writeValue, Signals.load, State.executed,
    State.memRead, ha, State.commit_reg _ _ _ h, State.updatePc, State.syscallHalt]

/-- A load from a valid address into register 0: the read happens, then `BAD_REG` (R314, R319). -/
theorem State.finishCycle_load_zero (s : State) (rd : Reg) (rtv ea mask : Word) (ha : inArray s.cfg ea = true) :
    s.finishCycle rd 0#5 rtv (Signals.load mask) ea =
      { (s.executed (Signals.load mask)).raise (.badReg 0) with changedAddr := some ea } := by
  simp [State.finishCycle, State.memoryStage, State.registerWrite, Signals.load, State.executed,
    State.memRead, ha, State.raise]

/-- A load from outside the array: `MEM_FAULT`, whatever rt is (R132, R319). -/
theorem State.finishCycle_load_fault (s : State) (rd rt : Reg) (rtv ea mask : Word) (ha : inArray s.cfg ea = false) :
    s.finishCycle rd rt rtv (Signals.load mask) ea = (s.executed (Signals.load mask)).raise (.memFault ea) := by
  simp [State.finishCycle, State.memoryStage, Signals.load, State.executed, State.memRead, ha]

/-- A store to a valid address (R58, R59). -/
theorem State.finishCycle_store (s : State) (rd rt : Reg) (rtv ea mask : Word) (ha : inArray s.cfg ea = true) :
    s.finishCycle rd rt rtv (Signals.store mask) ea =
      { s with mem := s.mem.writeWord (wordBase s.cfg ea) (rtv &&& mask), pc := s.pc + 4#32,
               pcMirror := s.pc + 4#32, signals := Signals.store mask, changedAddr := some ea,
               changedReg := none } := by
  simp [State.finishCycle, State.memoryStage, State.registerWrite, Signals.store, State.executed,
    State.memWrite, ha, State.updatePc, State.syscallHalt]

/-- A store outside the array: `MEM_FAULT`, memory unchanged (R59, R132). -/
theorem State.finishCycle_store_fault (s : State) (rd rt : Reg) (rtv ea mask : Word) (ha : inArray s.cfg ea = false) :
    s.finishCycle rd rt rtv (Signals.store mask) ea = (s.executed (Signals.store mask)).raise (.memFault ea) := by
  simp [State.finishCycle, State.memoryStage, Signals.store, State.executed, State.memWrite, ha]

/-- A cycle that only advances the PC: HI/LO writers (R126, R140). -/
theorem State.finishCycle_hiLo (s : State) (rd rt : Reg) (rtv v : Word) :
    s.finishCycle rd rt rtv Signals.hiLo v =
      { s with pc := s.pc + 4#32, pcMirror := s.pc + 4#32, signals := Signals.hiLo, changedAddr := none,
               changedReg := none } := by
  simp [State.finishCycle, State.memoryStage, State.registerWrite, Signals.hiLo, State.executed, State.updatePc,
    State.syscallHalt]

/-- A fault in execute ends the cycle before any later stage (R129). -/
theorem State.finishCycle_error (s : State) (rd rt : Reg) (rtv v : Word) (g : ControlSignals) (f : CoreFault)
    (h : g.error = some f) : s.finishCycle rd rt rtv g v = (s.executed g).raise f := by
  simp [State.finishCycle, h]

/-- A conditional branch (R140, R241). -/
theorem State.finishCycle_branch (s : State) (rd rt : Reg) (rtv v : Word) (taken : Bool) :
    s.finishCycle rd rt rtv (Signals.branch taken) v =
      { s with pc := if taken then v else s.pc + 4#32, pcMirror := if taken then v else s.pc + 4#32,
               signals := Signals.branch taken, changedAddr := none, changedReg := none } := by
  simp [State.finishCycle, State.memoryStage, State.registerWrite, Signals.branch, State.executed, State.updatePc,
    State.syscallHalt]

/-- `j` (R140, R271). -/
theorem State.finishCycle_j (s : State) (rd rt : Reg) (rtv v : Word) :
    s.finishCycle rd rt rtv Signals.j v =
      { s with pc := v, pcMirror := v, signals := Signals.j, changedAddr := none, changedReg := none } := by
  simp [State.finishCycle, State.memoryStage, State.registerWrite, Signals.j, State.executed, State.updatePc,
    State.syscallHalt]

/-- `jr` (R140, R181). -/
theorem State.finishCycle_jr (s : State) (rd rt : Reg) (rtv v : Word) :
    s.finishCycle rd rt rtv Signals.jr v =
      { s with pc := v, pcMirror := v, signals := Signals.jr, changedAddr := none, changedReg := none } := by
  simp [State.finishCycle, State.memoryStage, State.registerWrite, Signals.jr, State.executed, State.updatePc,
    State.syscallHalt]

/-- `jal`, after its link commit: register write only reports `x[31]` (R136, R272). -/
theorem State.finishCycle_jal (s : State) (rd rt : Reg) (rtv v : Word) :
    s.finishCycle rd rt rtv Signals.jal v =
      { s with pc := v, pcMirror := v, signals := Signals.jal, changedAddr := none, changedReg := some Reg.ra } := by
  simp [State.finishCycle, State.memoryStage, State.registerWrite, Signals.jal, State.executed, State.updatePc,
    State.syscallHalt]

/-- `jalr`, after its link commit (R136, R182). -/
theorem State.finishCycle_jalr (s : State) (rd rt : Reg) (rtv v : Word) :
    s.finishCycle rd rt rtv Signals.jalr v =
      { s with pc := v, pcMirror := v, signals := Signals.jalr, changedAddr := none, changedReg := some Reg.ra } := by
  simp [State.finishCycle, State.memoryStage, State.registerWrite, Signals.jalr, State.executed, State.updatePc,
    State.syscallHalt]

/-- `syscall`: the PC advances, then the halt check (R210, R212). -/
theorem State.finishCycle_syscall (s : State) (rd rt : Reg) (rtv num v : Word) :
    s.finishCycle rd rt rtv (Signals.syscall num) v =
      { s with pc := s.pc + 4#32, pcMirror := s.pc + 4#32, signals := Signals.syscall num, changedAddr := none,
               changedReg := none,
               status := if num = 10#32 then .haltedExit none
                         else if num = 17#32 then .haltedExit (some (s.reg Reg.a0)) else s.status } := by
  by_cases h10 : num = 10#32
  · simp [State.finishCycle, State.memoryStage, State.registerWrite, Signals.syscall, State.executed, State.updatePc,
      State.syscallHalt, h10]
  · by_cases h17 : num = 17#32 <;>
      simp [State.finishCycle, State.memoryStage, State.registerWrite, Signals.syscall, State.executed, State.updatePc,
        State.syscallHalt, h10, h17, State.reg]

/-- Everything the stages after execute can do to a state, whatever the signals: `s` is the state execute left. -/
structure StageEffect (s t : State) (rd rt : Reg) (g : ControlSignals) : Prop where
  cfg : t.cfg = s.cfg
  hi : t.hi = s.hi
  lo : t.lo = s.lo
  lastAddr : t.lastAddr = s.lastAddr
  mem : t.mem = s.mem ∨ (g.memWrite = true ∧ ∃ ea v, inArray s.cfg ea = true ∧
    t.mem = s.mem.writeWord (wordBase s.cfg ea) v)
  regs : t.regs = s.regs ∨ ∃ (d : Reg) (v : Word), d ≠ 0#5 ∧ (d = rd ∨ d = rt) ∧ t.regs = s.regs.set d.toNat v d.isLt
  outcome :
    (∃ f, t.status = .faulted f ∧ t.signals.error = some f ∧ t.pc = s.pc ∧ t.pcMirror = s.pcMirror ∧
      t.regs = s.regs ∧ (g.error = none → t.mem = s.mem ∨ f = .badReg 0) ∧ (g.error = some f ∨ f = .badReg 0 ∨ ∃ a, f = .memFault a)) ∨
    (g.error = none ∧ t.signals = g ∧ t.pcMirror = t.pc ∧ (t.status = s.status ∨ ∃ code, t.status = .haltedExit code))

/-- The stages after execute have no other effect. -/
theorem State.finishCycle_effect (s : State) (rd rt : Reg) (rtv : Word) (g : ControlSignals) (v : Word) :
    StageEffect s (s.finishCycle rd rt rtv g v) rd rt g := by
  cases he : g.error with
  | some f =>
    rw [State.finishCycle_error _ _ _ _ _ _ f he]
    exact ⟨rfl, rfl, rfl, rfl, .inl rfl, .inl rfl,
      .inl ⟨f, rfl, rfl, rfl, rfl, rfl, by simp [he], .inl he⟩⟩
  | none =>
    simp only [State.finishCycle, he]
    rcases (s.executed g).memoryStage_cases v rtv with hm | ⟨hw, ha, hm⟩ | ⟨hw, ca, x, hm⟩
    · rw [hm]
      exact ⟨rfl, rfl, rfl, rfl, .inl rfl, .inl rfl,
        .inl ⟨_, rfl, rfl, rfl, rfl, rfl, fun _ => .inl rfl, .inr (.inr ⟨v, rfl⟩)⟩⟩
    · rw [hm]
      simp only
      generalize writeValue _ _ _ = wv
      rcases State.registerWrite_cases _ rd rt wv with hr | ⟨d, hd0, hd, hr⟩ | ⟨cr, hr⟩
      · rw [hr]
        exact ⟨rfl, rfl, rfl, rfl, .inr ⟨hw, v, _, ha, rfl⟩, .inl rfl,
          .inl ⟨_, rfl, rfl, rfl, rfl, rfl, fun _ => .inr rfl, .inr (.inl rfl)⟩⟩
      · rw [hr]
        refine ⟨by simp, by simp, by simp, by simp, .inr ⟨hw, v, rtv &&& g.widthMask, ha, by simp⟩,
          .inr ⟨d, wv, hd0, hd, by simp⟩, .inr ⟨he, by simp, by simp, ?_⟩⟩
        exact State.syscallHalt_status_cases _
      · rw [hr]
        refine ⟨by simp, by simp, by simp, by simp, .inr ⟨hw, v, rtv &&& g.widthMask, ha, by simp⟩,
          .inl (by simp), .inr ⟨he, by simp, by simp, ?_⟩⟩
        exact State.syscallHalt_status_cases _
    · rw [hm]
      simp only
      generalize writeValue _ _ _ = wv
      rcases State.registerWrite_cases _ rd rt wv with hr | ⟨d, hd0, hd, hr⟩ | ⟨cr, hr⟩
      · rw [hr]
        exact ⟨rfl, rfl, rfl, rfl, .inl rfl, .inl rfl,
          .inl ⟨_, rfl, rfl, rfl, rfl, rfl, fun _ => .inl rfl, .inr (.inl rfl)⟩⟩
      · rw [hr]
        refine ⟨by simp, by simp, by simp, by simp, .inl (by simp),
          .inr ⟨d, wv, hd0, hd, by simp⟩, .inr ⟨he, by simp, by simp, ?_⟩⟩
        exact State.syscallHalt_status_cases _
      · rw [hr]
        refine ⟨by simp, by simp, by simp, by simp, .inl (by simp),
          .inl (by simp), .inr ⟨he, by simp, by simp, ?_⟩⟩
        exact State.syscallHalt_status_cases _

end Sys2Proof.Machine
end

