-- ==== Sys2Proof/Laws/Decode.lean ====
section
/-! SUPPORT. The fields of packed words (R81 to R83), the bytes of a word, and the decoder seen through `findRow`. -/

namespace Sys2Proof

/-- Concatenation, as numbers. -/
theorem toNat_concat {n m : Nat} (x : BitVec n) (y : BitVec m) : (x ++ y).toNat = x.toNat * 2 ^ m + y.toNat := by
  rw [BitVec.toNat_append, ← Nat.shiftLeft_add_eq_or_of_lt y.isLt, Nat.shiftLeft_eq]

theorem packR_toNat (rs rt rd : Reg) (shamt : BitVec 5) (funct : BitVec 6) :
    (packR rs rt rd shamt funct).toNat =
      rs.toNat * 2 ^ 21 + rt.toNat * 2 ^ 16 + rd.toNat * 2 ^ 11 + shamt.toNat * 2 ^ 6 + funct.toNat := by
  simp only [packR, toNat_concat, BitVec.toNat_ofNat]
  omega

theorem packI_toNat (op : BitVec 6) (rs rt : Reg) (imm : BitVec 16) :
    (packI op rs rt imm).toNat = op.toNat * 2 ^ 26 + rs.toNat * 2 ^ 21 + rt.toNat * 2 ^ 16 + imm.toNat := by
  simp only [packI, toNat_concat]
  omega

theorem packJ_toNat (op : BitVec 6) (t : BitVec 26) : (packJ op t).toNat = op.toNat * 2 ^ 26 + t.toNat := by
  simp only [packJ, toNat_concat]

section Fields

variable (rs rt rd : Reg) (shamt : BitVec 5) (op funct : BitVec 6) (imm : BitVec 16) (t : BitVec 26)

@[simp] theorem fieldOpcode_packR : fieldOpcode (packR rs rt rd shamt funct) = 0#6 := by
  apply BitVec.eq_of_toNat_eq
  have := rs.isLt; have := rt.isLt; have := rd.isLt; have := shamt.isLt; have := funct.isLt
  simp only [fieldOpcode, BitVec.extractLsb'_toNat, packR_toNat, Nat.shiftRight_eq_div_pow, BitVec.toNat_ofNat]
  omega
@[simp] theorem fieldRs_packR : fieldRs (packR rs rt rd shamt funct) = rs := by
  apply BitVec.eq_of_toNat_eq
  have := rs.isLt; have := rt.isLt; have := rd.isLt; have := shamt.isLt; have := funct.isLt
  simp only [fieldRs, BitVec.extractLsb'_toNat, packR_toNat, Nat.shiftRight_eq_div_pow]
  omega
@[simp] theorem fieldRt_packR : fieldRt (packR rs rt rd shamt funct) = rt := by
  apply BitVec.eq_of_toNat_eq
  have := rs.isLt; have := rt.isLt; have := rd.isLt; have := shamt.isLt; have := funct.isLt
  simp only [fieldRt, BitVec.extractLsb'_toNat, packR_toNat, Nat.shiftRight_eq_div_pow]
  omega
@[simp] theorem fieldRd_packR : fieldRd (packR rs rt rd shamt funct) = rd := by
  apply BitVec.eq_of_toNat_eq
  have := rs.isLt; have := rt.isLt; have := rd.isLt; have := shamt.isLt; have := funct.isLt
  simp only [fieldRd, BitVec.extractLsb'_toNat, packR_toNat, Nat.shiftRight_eq_div_pow]
  omega
@[simp] theorem fieldShamt_packR : fieldShamt (packR rs rt rd shamt funct) = shamt := by
  apply BitVec.eq_of_toNat_eq
  have := rs.isLt; have := rt.isLt; have := rd.isLt; have := shamt.isLt; have := funct.isLt
  simp only [fieldShamt, BitVec.extractLsb'_toNat, packR_toNat, Nat.shiftRight_eq_div_pow]
  omega
@[simp] theorem fieldFunct_packR : fieldFunct (packR rs rt rd shamt funct) = funct := by
  apply BitVec.eq_of_toNat_eq
  have := rs.isLt; have := rt.isLt; have := rd.isLt; have := shamt.isLt; have := funct.isLt
  simp only [fieldFunct, BitVec.extractLsb'_toNat, packR_toNat, Nat.shiftRight_eq_div_pow]
  omega

@[simp] theorem fieldOpcode_packI : fieldOpcode (packI op rs rt imm) = op := by
  apply BitVec.eq_of_toNat_eq
  have := op.isLt; have := rs.isLt; have := rt.isLt; have := imm.isLt
  simp only [fieldOpcode, BitVec.extractLsb'_toNat, packI_toNat, Nat.shiftRight_eq_div_pow]
  omega
@[simp] theorem fieldRs_packI : fieldRs (packI op rs rt imm) = rs := by
  apply BitVec.eq_of_toNat_eq
  have := op.isLt; have := rs.isLt; have := rt.isLt; have := imm.isLt
  simp only [fieldRs, BitVec.extractLsb'_toNat, packI_toNat, Nat.shiftRight_eq_div_pow]
  omega
@[simp] theorem fieldRt_packI : fieldRt (packI op rs rt imm) = rt := by
  apply BitVec.eq_of_toNat_eq
  have := op.isLt; have := rs.isLt; have := rt.isLt; have := imm.isLt
  simp only [fieldRt, BitVec.extractLsb'_toNat, packI_toNat, Nat.shiftRight_eq_div_pow]
  omega
@[simp] theorem fieldImm_packI : fieldImm (packI op rs rt imm) = imm := by
  apply BitVec.eq_of_toNat_eq
  have := op.isLt; have := rs.isLt; have := rt.isLt; have := imm.isLt
  simp only [fieldImm, BitVec.extractLsb'_toNat, packI_toNat, Nat.shiftRight_eq_div_pow]
  omega

@[simp] theorem fieldOpcode_packJ : fieldOpcode (packJ op t) = op := by
  apply BitVec.eq_of_toNat_eq
  have := op.isLt; have := t.isLt
  simp only [fieldOpcode, BitVec.extractLsb'_toNat, packJ_toNat, Nat.shiftRight_eq_div_pow]
  omega
@[simp] theorem fieldTarget_packJ : fieldTarget (packJ op t) = t := by
  apply BitVec.eq_of_toNat_eq
  have := op.isLt; have := t.isLt
  simp only [fieldTarget, BitVec.extractLsb'_toNat, packJ_toNat, Nat.shiftRight_eq_div_pow]
  omega

end Fields

/-- The decoder follows the row the opcode and funct select. -/
theorem decode_of_findRow {c : Config} {w : Word} {r : Row} (h : findRow w = some r) : decode c w = r.decode c w := by
  simp [decode, h]

/-- A word whose opcode and funct select no row is `ILLEGAL` (R97). -/
theorem decode_of_no_row {c : Config} {w : Word} (h : findRow w = none) : ∃ e, decode c w = .error e := by
  unfold decode
  rw [h]
  by_cases h0 : fieldOpcode w = 0#6
  · exact ⟨_, by simp only [h0]; rfl⟩
  · exact ⟨_, by simp only [h0]; rfl⟩

/-- Admitting a word's row changes no parameter but the optional set. -/
theorem Config.admitting_eq (c : Config) (w : Word) : ∃ ops, c.admitting w = { c with optionalOps := ops } := by
  unfold Config.admitting
  split
  · exact ⟨_, rfl⟩
  · split
    · exact ⟨_, rfl⟩
    · exact ⟨_, rfl⟩

/-- Under the parameters that admit a word's own row, that row is admitted (R90). -/
theorem Row.admitted_admitting {c : Config} {w : Word} {r : Row} (h : findRow w = some r) :
    r.admitted (c.admitting w) = true := by
  unfold Config.admitting Row.admitted
  cases ho : r.optional with
  | none => rfl
  | some op =>
    simp only [h, Option.bind_some, ho]
    split
    · assumption
    · simp [Config.admits]

/-- So the decoder never refuses the word of an optional row for want of admission. -/
theorem decode_admitting (c : Config) (w : Word) (op : OptionalOp) : decode (c.admitting w) w ≠ .error (.notAdmitted op) := by
  cases h : findRow w with
  | none =>
    unfold decode
    rw [h]
    by_cases h0 : fieldOpcode w = 0#6
    · simp [h0]
    · simp [h0]
  | some r =>
    rw [decode_of_findRow h, Row.decode, Row.admitted_admitting h]
    cases r.optional <;> (simp only; split <;> (try split) <;> simp)

end Sys2Proof
end

