-- ==== Sys2Proof/Laws/PerInstr.lean ====
section
/-! SUPPORT. The family `OwnRow`: the opcode and funct of an encoded instruction select the instruction's own row of the
opcode map (R84, R95), which carries the same format, class and mnemonic as its record (R34) and is optional exactly
when the instruction is. One lemma per instruction. -/

namespace Sys2Proof.Laws.OwnRow

/-- The encoded word selects the instruction's own row. -/
def Statement (i : Instr) : Prop :=
  ∃ r : Row, findRow (encode i) = some r ∧ r.mnemonic = i.record.mnemonic ∧ some r.format = i.record.format ∧
    r.syntaxClass = i.record.syntaxClass ∧ r.optional = i.optionalOp

/-- A search that depends on the opcode and funct alone, evaluated at them. -/
theorem findRow_eq (w : Word) (op fn : BitVec 6) (ho : fieldOpcode w = op) (hf : fieldFunct w = fn) :
    findRow w = opcodeTable.find? fun r => op == r.opcode && (match r.funct with | none => true | some f => fn == f) := by
  subst ho hf; rfl

theorem add (rd : Reg) (rs : Reg) (rt : Reg) : Statement (.add rd rs rt) := by
  refine ⟨_, (findRow_eq _ 0x00#6 0x20#6 ?_ ?_).trans rfl, rfl, rfl, rfl, rfl⟩ <;> simp [encode]
theorem sub (rd : Reg) (rs : Reg) (rt : Reg) : Statement (.sub rd rs rt) := by
  refine ⟨_, (findRow_eq _ 0x00#6 0x22#6 ?_ ?_).trans rfl, rfl, rfl, rfl, rfl⟩ <;> simp [encode]
theorem and (rd : Reg) (rs : Reg) (rt : Reg) : Statement (.and rd rs rt) := by
  refine ⟨_, (findRow_eq _ 0x00#6 0x24#6 ?_ ?_).trans rfl, rfl, rfl, rfl, rfl⟩ <;> simp [encode]
theorem or (rd : Reg) (rs : Reg) (rt : Reg) : Statement (.or rd rs rt) := by
  refine ⟨_, (findRow_eq _ 0x00#6 0x25#6 ?_ ?_).trans rfl, rfl, rfl, rfl, rfl⟩ <;> simp [encode]
theorem nor (rd : Reg) (rs : Reg) (rt : Reg) : Statement (.nor rd rs rt) := by
  refine ⟨_, (findRow_eq _ 0x00#6 0x27#6 ?_ ?_).trans rfl, rfl, rfl, rfl, rfl⟩ <;> simp [encode]
theorem xor (rd : Reg) (rs : Reg) (rt : Reg) : Statement (.xor rd rs rt) := by
  refine ⟨_, (findRow_eq _ 0x00#6 0x26#6 ?_ ?_).trans rfl, rfl, rfl, rfl, rfl⟩ <;> simp [encode]
theorem sll (rd : Reg) (rt : Reg) (shamt : BitVec 5) : Statement (.sll rd rt shamt) := by
  refine ⟨_, (findRow_eq _ 0x00#6 0x00#6 ?_ ?_).trans rfl, rfl, rfl, rfl, rfl⟩ <;> simp [encode]
theorem srl (rd : Reg) (rt : Reg) (shamt : BitVec 5) : Statement (.srl rd rt shamt) := by
  refine ⟨_, (findRow_eq _ 0x00#6 0x02#6 ?_ ?_).trans rfl, rfl, rfl, rfl, rfl⟩ <;> simp [encode]
theorem sra (rd : Reg) (rt : Reg) (shamt : BitVec 5) : Statement (.sra rd rt shamt) := by
  refine ⟨_, (findRow_eq _ 0x00#6 0x03#6 ?_ ?_).trans rfl, rfl, rfl, rfl, rfl⟩ <;> simp [encode]
theorem slt (rd : Reg) (rs : Reg) (rt : Reg) : Statement (.slt rd rs rt) := by
  refine ⟨_, (findRow_eq _ 0x00#6 0x2A#6 ?_ ?_).trans rfl, rfl, rfl, rfl, rfl⟩ <;> simp [encode]
theorem jr (rs : Reg) : Statement (.jr rs) := by
  refine ⟨_, (findRow_eq _ 0x00#6 0x08#6 ?_ ?_).trans rfl, rfl, rfl, rfl, rfl⟩ <;> simp [encode]
theorem jalr (rs : Reg) : Statement (.jalr rs) := by
  refine ⟨_, (findRow_eq _ 0x00#6 0x09#6 ?_ ?_).trans rfl, rfl, rfl, rfl, rfl⟩ <;> simp [encode]
theorem mfhi (rd : Reg) : Statement (.mfhi rd) := by
  refine ⟨_, (findRow_eq _ 0x00#6 0x10#6 ?_ ?_).trans rfl, rfl, rfl, rfl, rfl⟩ <;> simp [encode]
theorem mflo (rd : Reg) : Statement (.mflo rd) := by
  refine ⟨_, (findRow_eq _ 0x00#6 0x12#6 ?_ ?_).trans rfl, rfl, rfl, rfl, rfl⟩ <;> simp [encode]
theorem mthi (rs : Reg) : Statement (.mthi rs) := by
  refine ⟨_, (findRow_eq _ 0x00#6 0x11#6 ?_ ?_).trans rfl, rfl, rfl, rfl, rfl⟩ <;> simp [encode]
theorem mtlo (rs : Reg) : Statement (.mtlo rs) := by
  refine ⟨_, (findRow_eq _ 0x00#6 0x13#6 ?_ ?_).trans rfl, rfl, rfl, rfl, rfl⟩ <;> simp [encode]
theorem mult (rs : Reg) (rt : Reg) : Statement (.mult rs rt) := by
  refine ⟨_, (findRow_eq _ 0x00#6 0x18#6 ?_ ?_).trans rfl, rfl, rfl, rfl, rfl⟩ <;> simp [encode]
theorem multu (rs : Reg) (rt : Reg) : Statement (.multu rs rt) := by
  refine ⟨_, (findRow_eq _ 0x00#6 0x19#6 ?_ ?_).trans rfl, rfl, rfl, rfl, rfl⟩ <;> simp [encode]
theorem div (rs : Reg) (rt : Reg) : Statement (.div rs rt) := by
  refine ⟨_, (findRow_eq _ 0x00#6 0x1A#6 ?_ ?_).trans rfl, rfl, rfl, rfl, rfl⟩ <;> simp [encode]
theorem divu (rs : Reg) (rt : Reg) : Statement (.divu rs rt) := by
  refine ⟨_, (findRow_eq _ 0x00#6 0x1B#6 ?_ ?_).trans rfl, rfl, rfl, rfl, rfl⟩ <;> simp [encode]
theorem syscall : Statement (.syscall) := by
  refine ⟨_, (findRow_eq _ 0x00#6 0x0C#6 ?_ ?_).trans rfl, rfl, rfl, rfl, rfl⟩ <;> simp [encode]
theorem addi (rt : Reg) (rs : Reg) (imm : BitVec 16) : Statement (.addi rt rs imm) := by
  exact ⟨_, (findRow_eq _ 0x08#6 _ (by simp [encode]) rfl).trans rfl, rfl, rfl, rfl, rfl⟩
theorem andi (rt : Reg) (rs : Reg) (imm : BitVec 16) : Statement (.andi rt rs imm) := by
  exact ⟨_, (findRow_eq _ 0x0C#6 _ (by simp [encode]) rfl).trans rfl, rfl, rfl, rfl, rfl⟩
theorem ori (rt : Reg) (rs : Reg) (imm : BitVec 16) : Statement (.ori rt rs imm) := by
  exact ⟨_, (findRow_eq _ 0x0D#6 _ (by simp [encode]) rfl).trans rfl, rfl, rfl, rfl, rfl⟩
theorem xori (rt : Reg) (rs : Reg) (imm : BitVec 16) : Statement (.xori rt rs imm) := by
  exact ⟨_, (findRow_eq _ 0x0E#6 _ (by simp [encode]) rfl).trans rfl, rfl, rfl, rfl, rfl⟩
theorem lui (rt : Reg) (imm : BitVec 16) : Statement (.lui rt imm) := by
  exact ⟨_, (findRow_eq _ 0x0F#6 _ (by simp [encode]) rfl).trans rfl, rfl, rfl, rfl, rfl⟩
theorem beq (rs : Reg) (rt : Reg) (imm : BitVec 16) : Statement (.beq rs rt imm) := by
  exact ⟨_, (findRow_eq _ 0x04#6 _ (by simp [encode]) rfl).trans rfl, rfl, rfl, rfl, rfl⟩
theorem bne (rs : Reg) (rt : Reg) (imm : BitVec 16) : Statement (.bne rs rt imm) := by
  exact ⟨_, (findRow_eq _ 0x05#6 _ (by simp [encode]) rfl).trans rfl, rfl, rfl, rfl, rfl⟩
theorem lb (rt : Reg) (rs : Reg) (imm : BitVec 16) : Statement (.lb rt rs imm) := by
  exact ⟨_, (findRow_eq _ 0x20#6 _ (by simp [encode]) rfl).trans rfl, rfl, rfl, rfl, rfl⟩
theorem lh (rt : Reg) (rs : Reg) (imm : BitVec 16) : Statement (.lh rt rs imm) := by
  exact ⟨_, (findRow_eq _ 0x21#6 _ (by simp [encode]) rfl).trans rfl, rfl, rfl, rfl, rfl⟩
theorem lw (rt : Reg) (rs : Reg) (imm : BitVec 16) : Statement (.lw rt rs imm) := by
  exact ⟨_, (findRow_eq _ 0x23#6 _ (by simp [encode]) rfl).trans rfl, rfl, rfl, rfl, rfl⟩
theorem sb (rt : Reg) (rs : Reg) (imm : BitVec 16) : Statement (.sb rt rs imm) := by
  exact ⟨_, (findRow_eq _ 0x28#6 _ (by simp [encode]) rfl).trans rfl, rfl, rfl, rfl, rfl⟩
theorem sh (rt : Reg) (rs : Reg) (imm : BitVec 16) : Statement (.sh rt rs imm) := by
  exact ⟨_, (findRow_eq _ 0x29#6 _ (by simp [encode]) rfl).trans rfl, rfl, rfl, rfl, rfl⟩
theorem sw (rt : Reg) (rs : Reg) (imm : BitVec 16) : Statement (.sw rt rs imm) := by
  exact ⟨_, (findRow_eq _ 0x2B#6 _ (by simp [encode]) rfl).trans rfl, rfl, rfl, rfl, rfl⟩
theorem j (target : BitVec 26) : Statement (.j target) := by
  exact ⟨_, (findRow_eq _ 0x02#6 _ (by simp [encode]) rfl).trans rfl, rfl, rfl, rfl, rfl⟩
theorem jal (target : BitVec 26) : Statement (.jal target) := by
  exact ⟨_, (findRow_eq _ 0x03#6 _ (by simp [encode]) rfl).trans rfl, rfl, rfl, rfl, rfl⟩
theorem addu (rd : Reg) (rs : Reg) (rt : Reg) : Statement (.addu rd rs rt) := by
  refine ⟨_, (findRow_eq _ 0x00#6 0x21#6 ?_ ?_).trans rfl, rfl, rfl, rfl, rfl⟩ <;> simp [encode]
theorem subu (rd : Reg) (rs : Reg) (rt : Reg) : Statement (.subu rd rs rt) := by
  refine ⟨_, (findRow_eq _ 0x00#6 0x23#6 ?_ ?_).trans rfl, rfl, rfl, rfl, rfl⟩ <;> simp [encode]
theorem sltu (rd : Reg) (rs : Reg) (rt : Reg) : Statement (.sltu rd rs rt) := by
  refine ⟨_, (findRow_eq _ 0x00#6 0x2B#6 ?_ ?_).trans rfl, rfl, rfl, rfl, rfl⟩ <;> simp [encode]
theorem sllv (rd : Reg) (rt : Reg) (rs : Reg) : Statement (.sllv rd rt rs) := by
  refine ⟨_, (findRow_eq _ 0x00#6 0x04#6 ?_ ?_).trans rfl, rfl, rfl, rfl, rfl⟩ <;> simp [encode]
theorem srlv (rd : Reg) (rt : Reg) (rs : Reg) : Statement (.srlv rd rt rs) := by
  refine ⟨_, (findRow_eq _ 0x00#6 0x06#6 ?_ ?_).trans rfl, rfl, rfl, rfl, rfl⟩ <;> simp [encode]
theorem srav (rd : Reg) (rt : Reg) (rs : Reg) : Statement (.srav rd rt rs) := by
  refine ⟨_, (findRow_eq _ 0x00#6 0x07#6 ?_ ?_).trans rfl, rfl, rfl, rfl, rfl⟩ <;> simp [encode]
theorem addiu (rt : Reg) (rs : Reg) (imm : BitVec 16) : Statement (.addiu rt rs imm) := by
  exact ⟨_, (findRow_eq _ 0x09#6 _ (by simp [encode]) rfl).trans rfl, rfl, rfl, rfl, rfl⟩
theorem slti (rt : Reg) (rs : Reg) (imm : BitVec 16) : Statement (.slti rt rs imm) := by
  exact ⟨_, (findRow_eq _ 0x0A#6 _ (by simp [encode]) rfl).trans rfl, rfl, rfl, rfl, rfl⟩
theorem sltiu (rt : Reg) (rs : Reg) (imm : BitVec 16) : Statement (.sltiu rt rs imm) := by
  exact ⟨_, (findRow_eq _ 0x0B#6 _ (by simp [encode]) rfl).trans rfl, rfl, rfl, rfl, rfl⟩
theorem lbu (rt : Reg) (rs : Reg) (imm : BitVec 16) : Statement (.lbu rt rs imm) := by
  exact ⟨_, (findRow_eq _ 0x24#6 _ (by simp [encode]) rfl).trans rfl, rfl, rfl, rfl, rfl⟩
theorem lhu (rt : Reg) (rs : Reg) (imm : BitVec 16) : Statement (.lhu rt rs imm) := by
  exact ⟨_, (findRow_eq _ 0x25#6 _ (by simp [encode]) rfl).trans rfl, rfl, rfl, rfl, rfl⟩

end Sys2Proof.Laws.OwnRow
end

