-- ==== Sys2Proof/Laws/Step.lean ====
section
/-! SUPPORT. What a step can do, said once: the cases of a cycle (R147) and the shape of every execution. -/

namespace Sys2Proof.Machine

/-- The cases of the fetch stage (R121). -/
theorem State.fetch_cases (s : State) :
    (s.lastAddr.toNat < s.pc.toNat ∧ s.fetch = .ended) ∨
    (¬ s.lastAddr.toNat < s.pc.toNat ∧ fetchable s.cfg s.pc = false ∧ s.fetch = .faulted (.fetchFault s.pc)) ∨
    (¬ s.lastAddr.toNat < s.pc.toNat ∧ fetchable s.cfg s.pc = true ∧ inArray s.cfg s.pc = false ∧ s.fetch = .noMemory) ∨
    (¬ s.lastAddr.toNat < s.pc.toNat ∧ fetchable s.cfg s.pc = true ∧ inArray s.cfg s.pc = true ∧
      s.fetch = .word (s.mem.readWord (wordBase s.cfg s.pc))) := by
  by_cases h1 : s.lastAddr.toNat < s.pc.toNat
  · exact .inl ⟨h1, by simp [State.fetch, h1]⟩
  · cases h2 : fetchable s.cfg s.pc
    · exact .inr (.inl ⟨h1, rfl, by simp [State.fetch, h1, h2]⟩)
    · cases h3 : inArray s.cfg s.pc
      · exact .inr (.inr (.inl ⟨h1, rfl, rfl, by simp [State.fetch, h1, h2, h3]⟩))
      · exact .inr (.inr (.inr ⟨h1, rfl, rfl, by simp [State.fetch, h1, h2, h3]⟩))

/-- Everything a step that answers a next state can be: the end of the program, a fetch fault, an illegal word, or the
execution of the decoded instruction. -/
theorem step_cases {s t : State} (h : step s = .next t) :
    s.status = .running ∧
    (t = s.endOfProgram ∨ t = s.beginCycle.raise (.fetchFault s.pc) ∨
      (∃ w, t = s.beginCycle.raise (.illegalInstruction w)) ∨
      (∃ w i, s.fetch = .word w ∧ decode s.cfg w = .ok i ∧ exec i s = .next t)) := by
  unfold step at h
  split at h
  · rename_i hr
    refine ⟨hr, ?_⟩
    rcases s.fetch_cases with ⟨-, hf⟩ | ⟨-, -, hf⟩ | ⟨-, -, -, hf⟩ | ⟨-, -, -, hf⟩
    · rw [State.cycle, hf] at h
      exact .inl (by injection h with e; exact e.symm)
    · rw [State.cycle, hf] at h
      exact .inr (.inl (by injection h with e; exact e.symm))
    · rw [State.cycle, hf] at h
      exact absurd h (by simp)
    · rw [State.cycle, hf] at h
      simp only [State.runWord] at h
      cases hd : decode s.cfg (s.mem.readWord (wordBase s.cfg s.pc)) with
      | error e =>
        rw [hd] at h
        exact .inr (.inr (.inl ⟨_, by injection h with e; exact e.symm⟩))
      | ok i =>
        rw [hd] at h
        exact .inr (.inr (.inr ⟨_, i, hf, hd, h⟩))
  · exact absurd h (by simp)

/-- What the execute stage may change before the later stages run: nothing, HI and LO (R128), or `x[31]` (R127). -/
def ExecuteEffect (s e : State) : Prop :=
  e = s ∨ (∃ hi lo, e = { s with hi := hi, lo := lo }) ∨ e = s.link

/-- The error execute may raise: none, or a division fault of an execution that has written nothing (R129, R317). -/
def ExecuteError (s e : State) (g : ControlSignals) : Prop :=
  g.error = none ∨ (e = s ∧ (g.error = some .divByZero ∨ g.error = some .divOverflow))

/-- The shape of every execution: execute, then the shared stages. -/
theorem exec_shape (i : Instr) (s : State) :
    ∃ e rd rt rtv g v, exec i s = .next (State.finishCycle e rd rt rtv g v) ∧ ExecuteEffect s e ∧ ExecuteError s e g := by
  cases i
  case div rs rt =>
    simp only [exec, execDiv]
    split
    · exact ⟨s, _, _, _, _, _, rfl, .inl rfl, .inr ⟨rfl, .inl rfl⟩⟩
    · split
      · exact ⟨s, _, _, _, _, _, rfl, .inl rfl, .inr ⟨rfl, .inr rfl⟩⟩
      · exact ⟨_, _, _, _, _, _, rfl, .inr (.inl ⟨_, _, rfl⟩), .inl rfl⟩
  case divu rs rt =>
    simp only [exec, execDivu]
    split
    · exact ⟨s, _, _, _, _, _, rfl, .inl rfl, .inr ⟨rfl, .inl rfl⟩⟩
    · exact ⟨_, _, _, _, _, _, rfl, .inr (.inl ⟨_, _, rfl⟩), .inl rfl⟩
  case mthi => exact ⟨_, _, _, _, _, _, rfl, .inr (.inl ⟨_, _, rfl⟩), .inl rfl⟩
  case mtlo => exact ⟨_, _, _, _, _, _, rfl, .inr (.inl ⟨_, _, rfl⟩), .inl rfl⟩
  case mult => exact ⟨_, _, _, _, _, _, rfl, .inr (.inl ⟨_, _, rfl⟩), .inl rfl⟩
  case multu => exact ⟨_, _, _, _, _, _, rfl, .inr (.inl ⟨_, _, rfl⟩), .inl rfl⟩
  case jal => exact ⟨_, _, _, _, _, _, rfl, .inr (.inr rfl), .inl rfl⟩
  case jalr => exact ⟨_, _, _, _, _, _, rfl, .inr (.inr rfl), .inl rfl⟩
  all_goals exact ⟨s, _, _, _, _, _, rfl, .inl rfl, .inl rfl⟩

/-- An execution always answers a next state: no meaning stops the machine. -/
theorem exec_next (i : Instr) (s : State) : ∃ t, exec i s = .next t := by
  obtain ⟨e, rd, rt, rtv, g, v, h, -, -⟩ := exec_shape i s
  exact ⟨_, h⟩

end Sys2Proof.Machine
end

