-- ==== Sys2Proof/Tests/Slice0.lean ====
section
/-! SUPPORT. The model's own tests. Expected values come from 95_test_vectors.md (V<n>, L<n>) and from the encodings of
R81 to R83 and R95 filled in by hand, never from the model. The last part shows, for each statement with hypotheses, a
concrete state and operands that meet them. -/

namespace Sys2Proof.Tests

open Sys2Proof Sys2Proof.Machine Sys2Proof.Effect Sys2Proof.Safety

/-! ### Helpers -/

/-- The state with some general registers set. -/
def setRegs (s : State) : List (Reg × Word) → State
  | [] => s
  | (r, v) :: rest => setRegs { s with regs := s.regs.set r.toNat v r.isLt } rest

/-- The memory with some words set. -/
def setWords (m : Memory) : List (Nat × Word) → Memory
  | [] => m
  | (a, w) :: rest => setWords (m.writeWord a w) rest

/-- The vectors' start: the word at 0x1000 after reset (their TEXT_BASE, N, M and SP_INIT are those of
`Config.reference`), with registers, HI, LO and memory words set. -/
def machineWith (w : Word) (regs : List (Reg × Word)) (hi : Word := 0#32) (lo : Word := 0#32)
    (words : List (Nat × Word) := []) : State :=
  let s := setRegs (State.reset.placeWord w) regs
  { s with hi := hi, lo := lo, mem := setWords s.mem words }

/-- The machine with all eleven optional instructions admitted, as the vectors of L2.9 have it; the default admits none. -/
def withOptional (s : State) : State := { s with cfg := { s.cfg with optionalOps := OptionalOp.all } }

/-- One step answers a next state in which something reads as expected. -/
def afterIs {α : Type} [DecidableEq α] (s : State) (read : State → α) (expected : α) : Bool :=
  match step s with
  | .next t => decide (read t = expected)
  | .fault _ => false
  | .refused _ => false

/-! ### Decoding: every row's word, written out field by field -/

/-- R161. -/
theorem test_decode_add : decodeTableWord 32 0b000000_10001_01001_10110_00000_100000 = some (.add 0x16#5 0x11#5 0x9#5) := by decide
/-- R162. -/
theorem test_decode_sub : decodeTableWord 32 0b000000_10001_01001_10110_00000_100010 = some (.sub 0x16#5 0x11#5 0x9#5) := by decide
/-- R163. -/
theorem test_decode_and : decodeTableWord 32 0b000000_10001_01001_10110_00000_100100 = some (.and 0x16#5 0x11#5 0x9#5) := by decide
/-- R164. -/
theorem test_decode_or : decodeTableWord 32 0b000000_10001_01001_10110_00000_100101 = some (.or 0x16#5 0x11#5 0x9#5) := by decide
/-- R165. -/
theorem test_decode_nor : decodeTableWord 32 0b000000_10001_01001_10110_00000_100111 = some (.nor 0x16#5 0x11#5 0x9#5) := by decide
/-- R166. -/
theorem test_decode_xor : decodeTableWord 32 0b000000_10001_01001_10110_00000_100110 = some (.xor 0x16#5 0x11#5 0x9#5) := by decide
/-- R167. -/
theorem test_decode_sll : decodeTableWord 32 0b000000_00000_01001_10110_10011_000000 = some (.sll 0x16#5 0x9#5 0x13#5) := by decide
/-- R168. -/
theorem test_decode_srl : decodeTableWord 32 0b000000_00000_01001_10110_10011_000010 = some (.srl 0x16#5 0x9#5 0x13#5) := by decide
/-- R169. -/
theorem test_decode_sra : decodeTableWord 32 0b000000_00000_01001_10110_10011_000011 = some (.sra 0x16#5 0x9#5 0x13#5) := by decide
/-- R170. -/
theorem test_decode_slt : decodeTableWord 32 0b000000_10001_01001_10110_00000_101010 = some (.slt 0x16#5 0x11#5 0x9#5) := by decide
/-- R181. -/
theorem test_decode_jr : decodeTableWord 32 0b000000_10001_00000_00000_00000_001000 = some (.jr 0x11#5) := by decide
/-- R182. -/
theorem test_decode_jalr : decodeTableWord 32 0b000000_10001_00000_11111_00000_001001 = some (.jalr 0x11#5) := by decide
/-- R191. -/
theorem test_decode_mfhi : decodeTableWord 32 0b000000_00000_00000_10110_00000_010000 = some (.mfhi 0x16#5) := by decide
/-- R192. -/
theorem test_decode_mflo : decodeTableWord 32 0b000000_00000_00000_10110_00000_010010 = some (.mflo 0x16#5) := by decide
/-- R193. -/
theorem test_decode_mthi : decodeTableWord 32 0b000000_10001_00000_00000_00000_010001 = some (.mthi 0x11#5) := by decide
/-- R194. -/
theorem test_decode_mtlo : decodeTableWord 32 0b000000_10001_00000_00000_00000_010011 = some (.mtlo 0x11#5) := by decide
/-- R195. -/
theorem test_decode_mult : decodeTableWord 32 0b000000_10001_01001_00000_00000_011000 = some (.mult 0x11#5 0x9#5) := by decide
/-- R196. -/
theorem test_decode_multu : decodeTableWord 32 0b000000_10001_01001_00000_00000_011001 = some (.multu 0x11#5 0x9#5) := by decide
/-- R197. -/
theorem test_decode_div : decodeTableWord 32 0b000000_10001_01001_00000_00000_011010 = some (.div 0x11#5 0x9#5) := by decide
/-- R198. -/
theorem test_decode_divu : decodeTableWord 32 0b000000_10001_01001_00000_00000_011011 = some (.divu 0x11#5 0x9#5) := by decide
/-- R210. -/
theorem test_decode_syscall : decodeTableWord 32 0b000000_10001_01001_10110_10011_001100 = some (.syscall) := by decide
/-- R221. -/
theorem test_decode_addi : decodeTableWord 32 0b001000_10001_01001_1000101000110101 = some (.addi 0x9#5 0x11#5 0x8A35#16) := by decide
/-- R222. -/
theorem test_decode_andi : decodeTableWord 32 0b001100_10001_01001_1000101000110101 = some (.andi 0x9#5 0x11#5 0x8A35#16) := by decide
/-- R223. -/
theorem test_decode_ori : decodeTableWord 32 0b001101_10001_01001_1000101000110101 = some (.ori 0x9#5 0x11#5 0x8A35#16) := by decide
/-- R224. -/
theorem test_decode_xori : decodeTableWord 32 0b001110_10001_01001_1000101000110101 = some (.xori 0x9#5 0x11#5 0x8A35#16) := by decide
/-- R225. -/
theorem test_decode_lui : decodeTableWord 32 0b001111_00000_01001_1000101000110101 = some (.lui 0x9#5 0x8A35#16) := by decide
/-- R241. -/
theorem test_decode_beq : decodeTableWord 32 0b000100_10001_01001_1000101000110101 = some (.beq 0x11#5 0x9#5 0x8A35#16) := by decide
/-- R242. -/
theorem test_decode_bne : decodeTableWord 32 0b000101_10001_01001_1000101000110101 = some (.bne 0x11#5 0x9#5 0x8A35#16) := by decide
/-- R251. -/
theorem test_decode_lb : decodeTableWord 32 0b100000_10001_01001_1000101000110101 = some (.lb 0x9#5 0x11#5 0x8A35#16) := by decide
/-- R252. -/
theorem test_decode_lh : decodeTableWord 32 0b100001_10001_01001_1000101000110101 = some (.lh 0x9#5 0x11#5 0x8A35#16) := by decide
/-- R253. -/
theorem test_decode_lw : decodeTableWord 32 0b100011_10001_01001_1000101000110101 = some (.lw 0x9#5 0x11#5 0x8A35#16) := by decide
/-- R254. -/
theorem test_decode_sb : decodeTableWord 32 0b101000_10001_01001_1000101000110101 = some (.sb 0x9#5 0x11#5 0x8A35#16) := by decide
/-- R255. -/
theorem test_decode_sh : decodeTableWord 32 0b101001_10001_01001_1000101000110101 = some (.sh 0x9#5 0x11#5 0x8A35#16) := by decide
/-- R256. -/
theorem test_decode_sw : decodeTableWord 32 0b101011_10001_01001_1000101000110101 = some (.sw 0x9#5 0x11#5 0x8A35#16) := by decide
/-- R271. -/
theorem test_decode_j : decodeTableWord 32 0b000010_10101010111100110100010011 = some (.j 0x2ABCD13#26) := by decide
/-- R272. -/
theorem test_decode_jal : decodeTableWord 32 0b000011_10101010111100110100010011 = some (.jal 0x2ABCD13#26) := by decide
/-- R281. -/
theorem test_decode_addu : decodeTableWord 32 0b000000_10001_01001_10110_00000_100001 = some (.addu 0x16#5 0x11#5 0x9#5) := by decide
/-- R282. -/
theorem test_decode_subu : decodeTableWord 32 0b000000_10001_01001_10110_00000_100011 = some (.subu 0x16#5 0x11#5 0x9#5) := by decide
/-- R283. -/
theorem test_decode_sltu : decodeTableWord 32 0b000000_10001_01001_10110_00000_101011 = some (.sltu 0x16#5 0x11#5 0x9#5) := by decide
/-- R284. -/
theorem test_decode_sllv : decodeTableWord 32 0b000000_10001_01001_10110_00000_000100 = some (.sllv 0x16#5 0x9#5 0x11#5) := by decide
/-- R285. -/
theorem test_decode_srlv : decodeTableWord 32 0b000000_10001_01001_10110_00000_000110 = some (.srlv 0x16#5 0x9#5 0x11#5) := by decide
/-- R286. -/
theorem test_decode_srav : decodeTableWord 32 0b000000_10001_01001_10110_00000_000111 = some (.srav 0x16#5 0x9#5 0x11#5) := by decide
/-- R287. -/
theorem test_decode_addiu : decodeTableWord 32 0b001001_10001_01001_1000101000110101 = some (.addiu 0x9#5 0x11#5 0x8A35#16) := by decide
/-- R288. -/
theorem test_decode_slti : decodeTableWord 32 0b001010_10001_01001_1000101000110101 = some (.slti 0x9#5 0x11#5 0x8A35#16) := by decide
/-- R289. -/
theorem test_decode_sltiu : decodeTableWord 32 0b001011_10001_01001_1000101000110101 = some (.sltiu 0x9#5 0x11#5 0x8A35#16) := by decide
/-- R290. -/
theorem test_decode_lbu : decodeTableWord 32 0b100100_10001_01001_1000101000110101 = some (.lbu 0x9#5 0x11#5 0x8A35#16) := by decide
/-- R291. -/
theorem test_decode_lhu : decodeTableWord 32 0b100101_10001_01001_1000101000110101 = some (.lhu 0x9#5 0x11#5 0x8A35#16) := by decide

/-! ### One step of each instruction, from the vectors of 95_test_vectors.md -/

/-- V2 (R161). -/
theorem test_V2_add : afterIs (machineWith 0x01095020#32 [(8#5, 0x7FFFFFFF#32), (9#5, 0x00000001#32)])
    (fun t => (t.reg 10#5, t.pc, t.status)) (0x80000000#32, 0x00001004#32, .running) = true := by decide
/-- V24 (R161, R137). -/
theorem test_V24_add : afterIs (machineWith 0x01090020#32 [(8#5, 0x00000001#32), (9#5, 0x00000002#32)])
    (fun t => (t.pc, t.status)) (0x00001000#32, .faulted (.badReg 0)) = true := by decide
/-- V4 (R162). -/
theorem test_V4_sub : afterIs (machineWith 0x01095022#32 [(8#5, 0x00000000#32), (9#5, 0x00000001#32)])
    (fun t => (t.reg 10#5, t.pc, t.status)) (0xFFFFFFFF#32, 0x00001004#32, .running) = true := by decide
/-- V6 (R163). -/
theorem test_V6_and : afterIs (machineWith 0x01095024#32 [(8#5, 0xF0F0F0F0#32), (9#5, 0xFF00FF00#32)])
    (fun t => (t.reg 10#5, t.pc, t.status)) (0xF000F000#32, 0x00001004#32, .running) = true := by decide
/-- V7 (R164). -/
theorem test_V7_or : afterIs (machineWith 0x01095025#32 [(8#5, 0xF0F0F0F0#32), (9#5, 0x0F000F00#32)])
    (fun t => (t.reg 10#5, t.pc, t.status)) (0xFFF0FFF0#32, 0x00001004#32, .running) = true := by decide
/-- V8 (R165). -/
theorem test_V8_nor : afterIs (machineWith 0x01095027#32 [(8#5, 0x00000000#32), (9#5, 0x00000000#32)])
    (fun t => (t.reg 10#5, t.pc, t.status)) (0xFFFFFFFF#32, 0x00001004#32, .running) = true := by decide
/-- V11 (R166). -/
theorem test_V11_xor : afterIs (machineWith 0x01084026#32 [(8#5, 0x12345678#32)])
    (fun t => (t.reg 8#5, t.pc, t.status)) (0x00000000#32, 0x00001004#32, .running) = true := by decide
/-- V12 (R167). -/
theorem test_V12_sll : afterIs (machineWith 0x00095100#32 [(9#5, 0x80000001#32)])
    (fun t => (t.reg 10#5, t.pc, t.status)) (0x00000010#32, 0x00001004#32, .running) = true := by decide
/-- V25 (R98, R137). -/
theorem test_V25_sll : afterIs (machineWith 0x00000000#32 [])
    (fun t => (t.pc, t.status)) (0x00001000#32, .faulted (.badReg 0)) = true := by decide
/-- V15 (R168). -/
theorem test_V15_srl : afterIs (machineWith 0x00095102#32 [(9#5, 0x80000000#32)])
    (fun t => (t.reg 10#5, t.pc, t.status)) (0x08000000#32, 0x00001004#32, .running) = true := by decide
/-- V17 (R169). -/
theorem test_V17_sra : afterIs (machineWith 0x00095103#32 [(9#5, 0x80000000#32)])
    (fun t => (t.reg 10#5, t.pc, t.status)) (0xF8000000#32, 0x00001004#32, .running) = true := by decide
/-- V20 (R170). -/
theorem test_V20_slt : afterIs (machineWith 0x0109502A#32 [(8#5, 0xFFFFFFFF#32), (9#5, 0x00000001#32)])
    (fun t => (t.reg 10#5, t.pc, t.status)) (0x00000001#32, 0x00001004#32, .running) = true := by decide
/-- V21 (R170). -/
theorem test_V21_slt : afterIs (machineWith 0x0109502A#32 [(8#5, 0x00000001#32), (9#5, 0xFFFFFFFF#32), (10#5, 0xDEADBEEF#32)])
    (fun t => (t.reg 10#5, t.pc, t.status)) (0x00000000#32, 0x00001004#32, .running) = true := by decide
/-- V30 (R181). -/
theorem test_V30_jr : afterIs (machineWith 0x01000008#32 [(8#5, 0x00001040#32)])
    (fun t => (t.pc, t.status)) (0x00001040#32, .running) = true := by decide
/-- V35 (R182). -/
theorem test_V35_jalr : afterIs (machineWith 0x03E0F809#32 [(31#5, 0x00001040#32)])
    (fun t => (t.reg 31#5, t.pc, t.status)) (0x00001004#32, 0x00001040#32, .running) = true := by decide
/-- V36 (R89). -/
theorem test_V36_jalr : afterIs (machineWith 0x03204009#32 [(25#5, 0x00001080#32)])
    (fun t => (t.pc, t.status)) (0x00001000#32, .faulted (.illegalInstruction 0x03204009#32)) = true := by decide
/-- V40 (R191). -/
theorem test_V40_mfhi : afterIs (machineWith 0x00004010#32 [] 0xCAFEBABE#32 0x0#32 [])
    (fun t => (t.reg 8#5, t.pc, t.status)) (0xCAFEBABE#32, 0x00001004#32, .running) = true := by decide
/-- V44 (R191, R137). -/
theorem test_V44_mfhi : afterIs (machineWith 0x00000010#32 [] 0x00000001#32 0x0#32 [])
    (fun t => (t.pc, t.status)) (0x00001000#32, .faulted (.badReg 0)) = true := by decide
/-- V41 (R192). -/
theorem test_V41_mflo : afterIs (machineWith 0x00004012#32 [] 0x0#32 0x12345678#32 [])
    (fun t => (t.reg 8#5, t.pc, t.status)) (0x12345678#32, 0x00001004#32, .running) = true := by decide
/-- V42 (R193). -/
theorem test_V42_mthi : afterIs (machineWith 0x01000011#32 [(8#5, 0xAAAA5555#32)])
    (fun t => (t.hi, t.pc, t.status)) (0xAAAA5555#32, 0x00001004#32, .running) = true := by decide
/-- V43 (R194). -/
theorem test_V43_mtlo : afterIs (machineWith 0x01000013#32 [(8#5, 0x5555AAAA#32)])
    (fun t => (t.lo, t.pc, t.status)) (0x5555AAAA#32, 0x00001004#32, .running) = true := by decide
/-- V51 (R195). -/
theorem test_V51_mult : afterIs (machineWith 0x01090018#32 [(8#5, 0x12345678#32), (9#5, 0x9ABCDEF0#32)] 0xDEADBEEF#32 0xDEADBEEF#32 [])
    (fun t => (t.hi, t.lo, t.pc, t.status)) (0xF8CC93D6#32, 0x242D2080#32, 0x00001004#32, .running) = true := by decide
/-- V48 (R195). -/
theorem test_V48_mult : afterIs (machineWith 0x01090018#32 [(8#5, 0xFFFFFFFF#32), (9#5, 0x00000001#32)] 0xDEADBEEF#32 0xDEADBEEF#32 [])
    (fun t => (t.hi, t.lo, t.pc, t.status)) (0xFFFFFFFF#32, 0xFFFFFFFF#32, 0x00001004#32, .running) = true := by decide
/-- V58 (R196). -/
theorem test_V58_multu : afterIs (machineWith 0x01090019#32 [(8#5, 0x12345678#32), (9#5, 0x9ABCDEF0#32)] 0xDEADBEEF#32 0xDEADBEEF#32 [])
    (fun t => (t.hi, t.lo, t.pc, t.status)) (0x0B00EA4E#32, 0x242D2080#32, 0x00001004#32, .running) = true := by decide
/-- V60 (R197). -/
theorem test_V60_div : afterIs (machineWith 0x0109001A#32 [(8#5, 0xFFFFFFF9#32), (9#5, 0x00000002#32)] 0xDEADBEEF#32 0xDEADBEEF#32 [])
    (fun t => (t.hi, t.lo, t.pc, t.status)) (0xFFFFFFFF#32, 0xFFFFFFFD#32, 0x00001004#32, .running) = true := by decide
/-- V67 (R197). -/
theorem test_V67_div : afterIs (machineWith 0x0109001A#32 [(8#5, 0x80000000#32), (9#5, 0xFFFFFFFF#32)] 0x00000011#32 0x00000022#32 [])
    (fun t => (t.pc, t.status)) (0x00001000#32, .faulted .divOverflow) = true := by decide
/-- V69 (R198). -/
theorem test_V69_divu : afterIs (machineWith 0x0109001B#32 [(8#5, 0xFFFFFFF9#32), (9#5, 0x00000002#32)] 0xDEADBEEF#32 0xDEADBEEF#32 [])
    (fun t => (t.hi, t.lo, t.pc, t.status)) (0x00000001#32, 0x7FFFFFFC#32, 0x00001004#32, .running) = true := by decide
/-- V73 (R198). -/
theorem test_V73_divu : afterIs (machineWith 0x0109001B#32 [(8#5, 0x00000005#32), (9#5, 0x00000000#32)])
    (fun t => (t.pc, t.status)) (0x00001000#32, .faulted .divByZero) = true := by decide
/-- V82 (R212). -/
theorem test_V82_syscall : afterIs (machineWith 0x0000000C#32 [(2#5, 0x00000011#32), (4#5, 0x00000003#32)])
    (fun t => (t.pc, t.status)) (0x00001004#32, .haltedExit (some 3#32)) = true := by decide
/-- V84 (R213). -/
theorem test_V84_syscall : afterIs (machineWith 0x0000000C#32 [(2#5, 0x00000000#32)])
    (fun t => (t.pc, t.status)) (0x00001004#32, .running) = true := by decide
/-- V91 (R221). -/
theorem test_V91_addi : afterIs (machineWith 0x2109FFFF#32 [(8#5, 0x00000000#32)])
    (fun t => (t.reg 9#5, t.pc, t.status)) (0xFFFFFFFF#32, 0x00001004#32, .running) = true := by decide
/-- V94 (R221, R137). -/
theorem test_V94_addi : afterIs (machineWith 0x21000001#32 [(8#5, 0x00000000#32)])
    (fun t => (t.pc, t.status)) (0x00001000#32, .faulted (.badReg 0)) = true := by decide
/-- V95 (R222). -/
theorem test_V95_andi : afterIs (machineWith 0x31098001#32 [(8#5, 0xFFFFFFFF#32)])
    (fun t => (t.reg 9#5, t.pc, t.status)) (0xFFFF8001#32, 0x00001004#32, .running) = true := by decide
/-- V97 (R223). -/
theorem test_V97_ori : afterIs (machineWith 0x35098000#32 [(8#5, 0x12340000#32)])
    (fun t => (t.reg 9#5, t.pc, t.status)) (0xFFFF8000#32, 0x00001004#32, .running) = true := by decide
/-- V99 (R224). -/
theorem test_V99_xori : afterIs (machineWith 0x39098000#32 [(8#5, 0xFFFF7FFF#32)])
    (fun t => (t.reg 9#5, t.pc, t.status)) (0x0000FFFF#32, 0x00001004#32, .running) = true := by decide
/-- V101 (R225). -/
theorem test_V101_lui : afterIs (machineWith 0x3C098001#32 [])
    (fun t => (t.reg 9#5, t.pc, t.status)) (0x80010000#32, 0x00001004#32, .running) = true := by decide
/-- V103 (R88). -/
theorem test_V103_lui : afterIs (machineWith 0x3D090000#32 [])
    (fun t => (t.pc, t.status)) (0x00001000#32, .faulted (.illegalInstruction 0x3D090000#32)) = true := by decide
/-- V112 (R241). -/
theorem test_V112_beq : afterIs (machineWith 0x1109FFFF#32 [(8#5, 0x00000003#32), (9#5, 0x00000003#32)])
    (fun t => (t.pc, t.status)) (0x00001000#32, .running) = true := by decide
/-- V111 (R241). -/
theorem test_V111_beq : afterIs (machineWith 0x11090003#32 [(8#5, 0x00000004#32), (9#5, 0x00000005#32)])
    (fun t => (t.pc, t.status)) (0x00001004#32, .running) = true := by decide
/-- V115 (R242). -/
theorem test_V115_bne : afterIs (machineWith 0x15090003#32 [(8#5, 0x00000003#32), (9#5, 0x00000004#32)])
    (fun t => (t.pc, t.status)) (0x00001010#32, .running) = true := by decide
/-- V125 (R251). -/
theorem test_V125_lb : afterIs (machineWith 0x82090003#32 [(16#5, 0x00001100#32)] 0x0#32 0x0#32 [(0x1100, 0x11223344#32)])
    (fun t => (t.reg 9#5, t.pc, t.status)) (0x00000044#32, 0x00001004#32, .running) = true := by decide
/-- V126 (R252). -/
theorem test_V126_lh : afterIs (machineWith 0x86090000#32 [(16#5, 0x00001100#32)] 0x0#32 0x0#32 [(0x1100, 0x1122F344#32)])
    (fun t => (t.reg 9#5, t.pc, t.status)) (0x0000F344#32, 0x00001004#32, .running) = true := by decide
/-- V122 (R253, R64). -/
theorem test_V122_lw : afterIs (machineWith 0x8E090002#32 [(16#5, 0x00001100#32)] 0x0#32 0x0#32 [(0x1100, 0x11223344#32)])
    (fun t => (t.reg 9#5, t.pc, t.status)) (0x11223344#32, 0x00001004#32, .running) = true := by decide
/-- V134 (R319). -/
theorem test_V134_lw : afterIs (machineWith 0x8E000000#32 [(16#5, 0x00002000#32)])
    (fun t => (t.pc, t.status)) (0x00001000#32, .faulted (.memFault 0x2000#32)) = true := by decide
/-- V128 (R254). -/
theorem test_V128_sb : afterIs (machineWith 0xA2090000#32 [(16#5, 0x00001100#32), (9#5, 0xAABBCCDD#32)] 0x0#32 0x0#32 [(0x1100, 0x11223344#32)])
    (fun t => (t.mem.readWord 0x1100, t.pc, t.status)) (0x000000DD#32, 0x00001004#32, .running) = true := by decide
/-- V129 (R255). -/
theorem test_V129_sh : afterIs (machineWith 0xA6090000#32 [(16#5, 0x00001100#32), (9#5, 0xAABBCCDD#32)] 0x0#32 0x0#32 [(0x1100, 0x11223344#32)])
    (fun t => (t.mem.readWord 0x1100, t.pc, t.status)) (0x0000CCDD#32, 0x00001004#32, .running) = true := by decide
/-- V127 (R256). -/
theorem test_V127_sw : afterIs (machineWith 0xAE090008#32 [(16#5, 0x00001100#32), (9#5, 0xAABBCCDD#32)])
    (fun t => (t.mem.readWord 0x1108, t.pc, t.status)) (0xAABBCCDD#32, 0x00001004#32, .running) = true := by decide
/-- V131 (R256, R58). -/
theorem test_V131_sw : afterIs (machineWith 0xAE090000#32 [(16#5, 0x00001200#32), (9#5, 0x00000001#32)])
    (fun t => (t.pc, t.status)) (0x00001000#32, .faulted (.memFault 0x1200#32)) = true := by decide
/-- V140 (R271). -/
theorem test_V140_j : afterIs (machineWith 0x08000404#32 [])
    (fun t => (t.pc, t.status)) (0x00001010#32, .running) = true := by decide
/-- V142 (R272). -/
theorem test_V142_jal : afterIs (machineWith 0x0C000404#32 [])
    (fun t => (t.reg 31#5, t.pc, t.status)) (0x00001004#32, 0x00001010#32, .running) = true := by decide
/-- V150 (R281). -/
theorem test_V150_addu : afterIs (withOptional (machineWith 0x01095021#32 [(8#5, 0xFFFFFFFF#32), (9#5, 0x00000002#32)]))
    (fun t => (t.reg 10#5, t.pc, t.status)) (0x00000001#32, 0x00001004#32, .running) = true := by decide
/-- V151 (R282). -/
theorem test_V151_subu : afterIs (withOptional (machineWith 0x01095023#32 [(8#5, 0x00000000#32), (9#5, 0x00000001#32)]))
    (fun t => (t.reg 10#5, t.pc, t.status)) (0xFFFFFFFF#32, 0x00001004#32, .running) = true := by decide
/-- V152 (R283). -/
theorem test_V152_sltu : afterIs (withOptional (machineWith 0x0109502B#32 [(8#5, 0xFFFFFFFF#32), (9#5, 0x00000001#32), (10#5, 0xDEADBEEF#32)]))
    (fun t => (t.reg 10#5, t.pc, t.status)) (0x00000000#32, 0x00001004#32, .running) = true := by decide
/-- V154 (R284). -/
theorem test_V154_sllv : afterIs (withOptional (machineWith 0x01095004#32 [(8#5, 0x00000021#32), (9#5, 0x00000001#32)]))
    (fun t => (t.reg 10#5, t.pc, t.status)) (0x00000002#32, 0x00001004#32, .running) = true := by decide
/-- V155 (R285). -/
theorem test_V155_srlv : afterIs (withOptional (machineWith 0x01095006#32 [(8#5, 0x00000004#32), (9#5, 0x80000000#32)]))
    (fun t => (t.reg 10#5, t.pc, t.status)) (0x08000000#32, 0x00001004#32, .running) = true := by decide
/-- V156 (R286). -/
theorem test_V156_srav : afterIs (withOptional (machineWith 0x01095007#32 [(8#5, 0x00000004#32), (9#5, 0x80000000#32)]))
    (fun t => (t.reg 10#5, t.pc, t.status)) (0xF8000000#32, 0x00001004#32, .running) = true := by decide
/-- V157 (R287). -/
theorem test_V157_addiu : afterIs (withOptional (machineWith 0x2509FFFF#32 [(8#5, 0x00000000#32)]))
    (fun t => (t.reg 9#5, t.pc, t.status)) (0xFFFFFFFF#32, 0x00001004#32, .running) = true := by decide
/-- V158 (R288). -/
theorem test_V158_slti : afterIs (withOptional (machineWith 0x2909FFFF#32 [(8#5, 0xFFFFFFFE#32)]))
    (fun t => (t.reg 9#5, t.pc, t.status)) (0x00000001#32, 0x00001004#32, .running) = true := by decide
/-- V159 (R289). -/
theorem test_V159_sltiu : afterIs (withOptional (machineWith 0x2D09FFFF#32 [(8#5, 0x00000005#32)]))
    (fun t => (t.reg 9#5, t.pc, t.status)) (0x00000001#32, 0x00001004#32, .running) = true := by decide
/-- V160 (R290). -/
theorem test_V160_lbu : afterIs (withOptional (machineWith 0x92090000#32 [(16#5, 0x00001100#32)] 0x0#32 0x0#32 [(0x1100, 0x112233F4#32)]))
    (fun t => (t.reg 9#5, t.pc, t.status)) (0x000000F4#32, 0x00001004#32, .running) = true := by decide
/-- V161 (R291). -/
theorem test_V161_lhu : afterIs (withOptional (machineWith 0x96090000#32 [(16#5, 0x00001100#32)] 0x0#32 0x0#32 [(0x1100, 0x1122F344#32)]))
    (fun t => (t.reg 9#5, t.pc, t.status)) (0x0000F344#32, 0x00001004#32, .running) = true := by decide
/-- V170 (R97, R312). -/
theorem test_V170_illegal : afterIs (machineWith 0xFC000000#32 [])
    (fun t => (t.pc, t.status)) (0x00001000#32, .faulted (.illegalInstruction 0xFC000000#32)) = true := by decide
/-- V171 (R97, R312). -/
theorem test_V171_illegal : afterIs (machineWith 0x00000001#32 [])
    (fun t => (t.pc, t.status)) (0x00001000#32, .faulted (.illegalInstruction 0x00000001#32)) = true := by decide

/-! ### Well-formedness: an ill-formed term for each check (R9, R90) -/

/-- A base that is no multiple of 4. -/
theorem test_wf_base : ¬ ({ Config.reference with textBase := 0x1002#32 } : Config).WellFormed := by decide
/-- No instruction word. -/
theorem test_wf_instr_segment : ¬ ({ Config.reference with instrCapacity := 0 } : Config).WellFormed := by decide
/-- No data word. -/
theorem test_wf_data_segment : ¬ ({ Config.reference with dataWords := 0 } : Config).WellFormed := by decide
/-- An array past the end of the address space: base 0xFFFFFFFC with two words. -/
theorem test_wf_fits :
    ¬ ({ Config.reference with textBase := 0xFFFFFFFC#32, instrCapacity := 1, dataWords := 1 } : Config).WellFormed := by
  decide
/-- The array may end exactly at 2^32 (R9). -/
theorem test_wf_fits_exactly :
    ({ Config.reference with textBase := 0xFFFFFFF8#32, instrCapacity := 1, dataWords := 1 } : Config).WellFormed := by
  decide
/-- An optional instruction that is not admitted. -/
theorem test_wf_admission :
    (Instr.addu 10#5 8#5 9#5).wellFormed { Config.reference with optionalOps := [.subu] } = false := by decide
/-- V162: with the default parameters its word is `ILLEGAL`, and the step faults. -/
theorem test_V162_addu_not_admitted :
    decode Config.reference 0x01095021#32 = .error (.notAdmitted .addu) ∧
    afterIs (machineWith 0x01095021#32 [(8#5, 1#32), (9#5, 2#32)]) (fun t => (t.reg 10#5, t.pc, t.status))
      (0#32, 0x1000#32, .faulted (.illegalInstruction 0x01095021#32)) = true := by decide
/-- The defaults of R88 and R280, and reset takes them. -/
theorem test_parameter_defaults :
    State.reset.cfg.optionalOps = [] ∧ State.reset.cfg.strictDecode = true ∧
    OptionalOp.all.map State.reset.cfg.admits = List.replicate 11 false := by decide

/-! ### Decoding: rejections and the loose setting -/

/-- V170: opcode 0x3F is unassigned (R97). -/
theorem test_decode_unassigned_opcode : decodeTableWord 32 0xFC000000 = none := by decide
/-- V172: `add` with shamt 1 under `STRICT_DECODE` (R88). -/
theorem test_V172_strict : decodeTableWord 32 0x01095060 = none := by decide
/-- V173: the same word when `STRICT_DECODE` is false (R88). -/
theorem test_V173_loose :
    decode { Config.reference with strictDecode := false } 0x01095060#32 = .ok (.add 10#5 8#5 9#5) := by decide
/-- V36: `jalr` with rd = 8 is `ILLEGAL` under either setting (R89). -/
theorem test_V36_loose :
    decode { Config.reference with strictDecode := false } 0x03204009#32 = .error .linkNotRa := by decide
/-- V85: bits 25:6 of `syscall` are ignored (R113). -/
theorem test_V85_syscall : decodeTableWord 32 0x03FFFFCC = some .syscall := by decide
/-- Three bytes are no word (R80). -/
theorem test_decode_truncated : decodeBytes Config.reference [0#8, 0#8, 0#8] = .error .truncated := by decide
/-- The encoder gives the word of L1.3, `sb $t0, -4($t1)`. -/
theorem test_encode_sb : encode (.sb 8#5 9#5 0xFFFC#16) = 0xA128FFFC#32 := by decide

/-! ### Reset, load and the host's entry -/

/-- R36, R340 to R342: reset. -/
theorem test_reset_registers : State.reset.reg 29#5 = 0x11FC#32 ∧ State.reset.reg 28#5 = 0#32 ∧ State.reset.pc = 0x1000#32 := by
  decide
/-- The next step runs the placed word: `addi $t0, $zero, 5`. -/
theorem test_withFetchWord :
    afterIs (State.reset.withFetchWord 32 0x20080005) (fun t => (t.reg 8#5, t.pc)) (5#32, 0x1004#32) = true := by decide
/-- It admits the row of a placed optional word, `addiu $t0, $zero, 5`, and no other. -/
theorem test_withFetchWord_optional :
    afterIs (State.reset.withFetchWord 32 0x24080005) (fun t => (t.reg 8#5, t.pc, t.cfg.optionalOps))
      (5#32, 0x1004#32, [.addiu]) = true := by decide
/-- R343, R345: the last address of a loaded image of three words. -/
theorem test_load_last_addr :
    (match boot Config.reference [0x00084000#32, 0x00084000#32, 0x00084000#32] with
      | .next t => decide (t.lastAddr = 0x1008#32 ∧ t.status = .running ∧ t.mem.readWord 0x1008 = 0x00084000#32)
      | .fault _ => false
      | .refused _ => false) = true := by decide
/-- V143: a fetch below the base faults (R121). -/
theorem test_V143_fetch_fault :
    afterIs { machineWith 0x080003FF#32 [] with pc := 0x0FFC#32 } (fun t => (t.pc, t.status))
      (0x0FFC#32, .faulted (.fetchFault 0x0FFC#32)) = true := by decide
/-- V33: the end check comes before the alignment check (R121). -/
theorem test_V33_end_first :
    afterIs { machineWith 0x01000008#32 [] with pc := 0x1042#32 } (fun t => (t.pc, t.status)) (0x1042#32, .haltedEnd)
      = true := by decide
/-- V80: the signal (1, 42) reaches the host (R211). -/
theorem test_V80_request :
    afterIs (machineWith 0x0000000C#32 [(2#5, 1#32), (4#5, 42#32)]) (fun t => t.hostRequest) (some (.printSigned 42#32))
      = true := by decide
/-- The codes of R310. -/
theorem test_error_codes :
    [CoreFault.badReg 0, .illegalInstruction 0#32, .memFault 0#32, .fetchFault 0#32, .divByZero, .divOverflow].map
      CoreFault.code = [2, 3, 4, 5, 6, 7] := by decide
/-- L1.4: the product function on its own (R199). -/
theorem test_long_multiplier :
    smul64 0x12345678#32 0x9ABCDEF0#32 = (0xF8CC93D6#32, 0x242D2080#32) ∧
    umul64 0x12345678#32 0x9ABCDEF0#32 = (0x0B00EA4E#32, 0x242D2080#32) := by decide
/-- R24: the mirror stands at entry 32 of the register file. -/
theorem test_file_entries :
    (List.range 36).map (machineWith 0x00004010#32 [(8#5, 7#32)] 1#32 2#32).fileEntry =
      (List.replicate 8 (some 0#32)) ++ [some 7#32] ++ List.replicate 20 (some 0#32) ++ [some 0x11FC#32, some 0#32, some 0#32]
        ++ [some 0x1000#32, some 1#32, some 2#32, none] := by decide

/-! ### Witnesses: the hypotheses of every statement can be met together -/

theorem afterIs_spec {α : Type} [DecidableEq α] {s : State} {read : State → α} {v : α} (h : afterIs s read v = true) :
    ∃ t, step s = .next t ∧ read t = v := by
  unfold afterIs at h
  split at h
  · exact ⟨_, ‹_›, of_decide_eq_true h⟩
  · cases h
  · cases h

/-- `add $t2, $t0, $t1` at the base (V1). -/
def adding : State := machineWith 0x01095020#32 [(8#5, 5#32), (9#5, 7#32)]

/-- The same word at the last word of the array, with `LAST_ADDR` there. -/
def addingAtEnd : State :=
  { adding with mem := setWords [] [(0x11FC, 0x01095020#32)], pc := 0x11FC#32, pcMirror := 0x11FC#32, lastAddr := 0x11FC#32 }

/-- The core with every optional instruction. -/
def full : Config := { Config.reference with optionalOps := OptionalOp.all }

/-- The core with loose decoding. -/
def loose : Config := { Config.reference with strictDecode := false }

theorem adding_invariant : Invariant adding where
  config := by decide
  zero := by decide
  mirror := by decide
  memory := by decide
  inside := by decide
  last := .inl (by unfold LastAddrInSegment; decide)
  error f := by
    have h1 : adding.signals.error = none := by decide
    have h2 : adding.status = .running := by decide
    rw [h1, h2]
    simp

theorem witness_EncodePacksAndDecodesBack :
    (Instr.sw 9#5 16#5 0xFFFF#16).wellFormed Config.reference = true ∧ (Instr.lhu 31#5 0#5 0#16).wellFormed full = true := by
  decide

theorem witness_DecodeAgreesWithMaskTable :
    ∃ r ∈ maskRows, r.mnemonic = "add" ∧ r.Matches Config.reference 0x01095020#32 :=
  ⟨{ mnemonic := "add", pattern := 0x00000020#32, strict := 0xFC0007FF#32, loose := 0xFC00003F#32 },
    List.mem_append_left _ (List.mem_append_left _ (List.mem_cons_self)), rfl, (fun _ h => nomatch h), by decide⟩

theorem witness_StrictWordIsItsEncoding :
    Config.reference.strictDecode = true ∧ decode Config.reference 0x8FA80008#32 = .ok (.lw 8#5 29#5 8#16) ∧
    decode Config.reference 0x03FFFFCC#32 = .ok .syscall := by decide

theorem witness_LooseWordDecodesAsItsStrictForm :
    decode loose 0x01095060#32 = .ok (.add 10#5 8#5 9#5) ∧ decode loose 0x03FFFFCC#32 = .ok .syscall ∧
    "add" ∈ maskRows.map (·.mnemonic) ∧ "syscall" ∈ maskRows.map (·.mnemonic) := by decide

/-- One word for each end of each range of unassigned codes. -/
theorem witness_UnassignedCodesAreIllegal :
    fieldOpcode 0x04000000#32 = 0x01#6 ∧ (fieldOpcode 0x40000000#32).toNat = 0x10 ∧ (fieldOpcode 0x7FFFFFFF#32).toNat = 0x1F ∧
    (fieldOpcode 0xB0000000#32).toNat = 0x2C ∧ (fieldOpcode 0xFFFFFFFF#32).toNat = 0x3F ∧
    fieldFunct 0x00000001#32 = 0x01#6 ∧ (fieldFunct 0x0000000D#32).toNat = 0x0D ∧ (fieldFunct 0x0000000F#32).toNat = 0x0F ∧
    (fieldFunct 0x00000014#32).toNat = 0x14 ∧ (fieldFunct 0x00000017#32).toNat = 0x17 ∧
    (fieldFunct 0x0000001C#32).toNat = 0x1C ∧ (fieldFunct 0x0000001F#32).toNat = 0x1F ∧
    (fieldFunct 0x0000002C#32).toNat = 0x2C ∧ (fieldFunct 0x0000003F#32).toNat = 0x3F ∧
    fieldOpcode 0x00000001#32 = 0#6 ∧ fieldOpcode 0x0000003F#32 = 0#6 := by decide

theorem witness_StepRunsDecodedInstruction :
    (adding.status = .running ∧ adding.pc.toNat ≤ adding.lastAddr.toNat ∧ adding.cfg.textBase.toNat ≤ adding.pc.toNat ∧
      (adding.pc.toNat - adding.cfg.textBase.toNat) % 4 = 0 ∧ inArray adding.cfg adding.pc = true ∧
      decode adding.cfg (adding.mem.readWord (wordBase adding.cfg adding.pc)) = .ok (.add 10#5 8#5 9#5)) ∧
    (addingAtEnd.status = .running ∧ addingAtEnd.pc.toNat ≤ addingAtEnd.lastAddr.toNat ∧
      addingAtEnd.cfg.textBase.toNat ≤ addingAtEnd.pc.toNat ∧
      (addingAtEnd.pc.toNat - addingAtEnd.cfg.textBase.toNat) % 4 = 0 ∧ inArray addingAtEnd.cfg addingAtEnd.pc = true ∧
      decode addingAtEnd.cfg (addingAtEnd.mem.readWord (wordBase addingAtEnd.cfg addingAtEnd.pc)) =
        .ok (.add 10#5 8#5 9#5)) := by decide

theorem witness_FetchEndsOrFaults :
    (let s := { adding with pc := 0x1001#32 }; s.status = .running ∧ s.lastAddr.toNat < s.pc.toNat) ∧
    (let s := { adding with pc := 0x0FFF#32 };
      s.status = .running ∧ s.pc.toNat ≤ s.lastAddr.toNat ∧ s.pc.toNat < s.cfg.textBase.toNat) ∧
    (let s := { adding with pc := 0x1001#32, lastAddr := 0x1004#32 };
      s.status = .running ∧ s.pc.toNat ≤ s.lastAddr.toNat ∧ (s.pc.toNat - s.cfg.textBase.toNat) % 4 ≠ 0) := by decide

theorem witness_IllegalWordFaultsUnchanged :
    let s := machineWith 0xFC000000#32 []
    s.status = .running ∧ s.fetch = .word 0xFC000000#32 ∧
      decode s.cfg 0xFC000000#32 = .error (.unassignedOpcode 0x3F#6) := by decide

theorem witness_EndedRunTakesNoStep :
    State.reset.status ≠ .running ∧ ({ adding with status := .haltedExit (some 3#32) } : State).status ≠ .running ∧
    ({ adding with status := .faulted .divByZero } : State).status ≠ .running := by decide

theorem witness_SignalsDoNotCrossCycles : adding.status = .running := by decide

theorem witness_RunningMachineAlwaysSteps : Invariant adding ∧ adding.status = .running :=
  ⟨adding_invariant, by decide⟩

/-- N + 1, N and one word. -/
theorem witness_ImageLoadPlacesWords :
    Config.reference.WellFormed ∧ Config.reference.instrCapacity < (List.replicate 65 0x00084000#32).length ∧
    (List.replicate 64 0x00084000#32).length ≤ Config.reference.instrCapacity ∧
    0 < (List.replicate 64 0x00084000#32).length ∧ [0x00084000#32].length ≤ Config.reference.instrCapacity ∧
    0 < [0x00084000#32].length := by decide

theorem witness_LoadedMachineMeetsInvariant :
    Config.reference.WellFormed ∧ (∃ t, boot Config.reference [0x00084000#32] = .next t) ∧
    ∃ t, boot Config.reference [] = .next t := ⟨by decide, ⟨_, rfl⟩, ⟨_, rfl⟩⟩

theorem witness_StepKeepsMachineInvariant : Invariant adding ∧ ∃ t, step adding = .next t ∧ t.pc = 0x1004#32 :=
  ⟨adding_invariant, afterIs_spec (by decide)⟩

/-- Every fault a step can raise, raised (V24, V170, V132, V114, V66, V67). -/
theorem witness_faults :
    (∃ t, step (machineWith 0x01090020#32 []) = .next t ∧ t.status = .faulted (.badReg 0)) ∧
    (∃ t, step (machineWith 0xFC000000#32 []) = .next t ∧ t.status = .faulted (.illegalInstruction 0xFC000000#32)) ∧
    (∃ t, step (machineWith 0x8E090000#32 [(16#5, 0xFFC#32)]) = .next t ∧ t.status = .faulted (.memFault 0xFFC#32)) ∧
    (∃ t, step { adding with pc := 0xFFC#32 } = .next t ∧ t.status = .faulted (.fetchFault 0xFFC#32)) ∧
    (∃ t, step (machineWith 0x0109001A#32 [(8#5, 5#32)]) = .next t ∧ t.status = .faulted .divByZero) ∧
    (∃ t, step (machineWith 0x0109001A#32 [(8#5, 0x80000000#32), (9#5, 0xFFFFFFFF#32)]) = .next t ∧
      t.status = .faulted .divOverflow) :=
  ⟨afterIs_spec (by decide), afterIs_spec (by decide), afterIs_spec (by decide), afterIs_spec (by decide),
    afterIs_spec (by decide), afterIs_spec (by decide)⟩

theorem witness_FaultsArePrecise :
    ∃ t, step (machineWith 0x01090020#32 []) = .next t ∧ t.status = .faulted (.badReg 0) := witness_faults.1

theorem witness_StepFaultsRecordTheirCause :
    ∃ t, step (machineWith 0x8E090000#32 [(16#5, 0xFFC#32)]) = .next t ∧ t.status = .faulted (.memFault 0xFFC#32) :=
  witness_faults.2.2.1

theorem witness_BadFormatOnlyFromForeignRecords :
    ({ format := none, id := 0x08#6, mnemonic := "addi", syntaxClass := .arithLogI } : Record).format = none ∧
    ∃ t, step adding = .next t ∧ t.status = .running := ⟨rfl, afterIs_spec (by decide)⟩

theorem witness_StepsNeverChangeLastAddr : ∃ t, step adding = .next t ∧ t.pc = 0x1004#32 := afterIs_spec (by decide)

theorem witness_OnlyHiLoFamilyUsesHiLo :
    writesHiLo (.mfhi 8#5) = false ∧ (∃ t, exec (.mfhi 8#5) adding = .next t) ∧ readsHiLo (.add 10#5 8#5 9#5) = false :=
  ⟨rfl, exec_next _ _, rfl⟩

theorem witness_StepTouchesOneWord :
    (∃ t, step (machineWith 0xAE090008#32 [(16#5, 0x1100#32)]) = .next t ∧ t.changedAddr = some 0x1108#32) ∧
    ∃ t, step adding = .next t ∧ t.changedAddr = none := ⟨afterIs_spec (by decide), afterIs_spec (by decide)⟩

/-- A store at the base read through the last byte of its word, and a load of the last word of the array. -/
theorem witness_LoadReadsLatestStore :
    adding.mem.wf ∧ (∃ t, adding.memWrite 0x1000#32 0xFF#32 0x1234#32 = .ok t) ∧
    inArray adding.cfg 0x1003#32 = true ∧ wordIndex adding.cfg 0x1003#32 = wordIndex adding.cfg 0x1000#32 ∧
    inArray adding.cfg 0x11FF#32 = true ∧ wordIndex adding.cfg 0x11FF#32 ≠ wordIndex adding.cfg 0x1000#32 :=
  ⟨by decide, ⟨_, if_pos (by decide)⟩, by decide, by decide, by decide, by decide⟩

/-- V136: the word after the store is the stored one. -/
theorem witness_StoredWordIsFetchedNext :
    let s : State := { machineWith 0xAE090004#32 [(16#5, 0x1000#32), (9#5, 0x200A0009#32)] with lastAddr := 0x1004#32 }
    s.mem.wf ∧ ∃ t, exec (.sw 9#5 16#5 4#16) s = .next t ∧
      inArray s.cfg (s.reg 16#5 + (4#16).signExtend 32) = true ∧ inArray s.cfg t.pc = true ∧
      wordIndex s.cfg t.pc = wordIndex s.cfg (s.reg 16#5 + (4#16).signExtend 32) ∧ t.pc.toNat ≤ s.lastAddr.toNat ∧
      (t.pc.toNat - s.cfg.textBase.toNat) % 4 = 0 := by
  refine ⟨by decide, _, rfl, ?_⟩
  decide

theorem witness_CommitWritesOrRefuses :
    ((0 : Nat) = 0 ∨ 31 < 0) ∧ ((32 : Nat) = 0 ∨ 31 < 32) ∧ (0 < 1 ∧ 1 ≤ 31) ∧ (0 < 31 ∧ 31 ≤ 31) := by decide

/-- A machine with the given signals, as a stage finds it. -/
def signalled (g : ControlSignals) : State := { adding with signals := g }

theorem witness_RegisterWriteControl :
    ((signalled quiet).signals.regWrite = false ∧ (signalled quiet).signals.memToReg = false) ∧
    ((signalled (loading 0xFF#32)).signals.memToReg = true ∧ (signalled (loading 0xFF#32)).signals.memRead = true) ∧
    (let s := signalled { jump := true, regWrite := true };
      ¬ (s.signals.memToReg = true ∧ s.signals.memRead = true) ∧ s.signals.jump = true ∧ s.signals.regWrite = true) ∧
    (let s := signalled toRd;
      ¬ (s.signals.memToReg = true ∧ s.signals.memRead = true) ∧ ¬ (s.signals.jump = true ∧ s.signals.regWrite = true) ∧
        (s.signals.regWrite = true ∨ s.signals.memToReg = true)) := by decide

theorem witness_PcUpdaterRedirectsOrAdvances :
    (signalled (branching true)).signals.branch = true ∧ (signalled { jump := true }).signals.jump = true ∧
    (signalled toRd).signals.branch = false ∧ (signalled toRd).signals.jump = false := by decide

theorem witness_MemoryStageReadsWritesOrPasses :
    (let s := signalled (storing 0xFF#32); s.signals.memWrite = true ∧ inArray s.cfg 0x1000#32 = true) ∧
    (let s := signalled (loading 0xFF#32);
      s.signals.memWrite = false ∧ s.signals.memRead = true ∧ inArray s.cfg 0x11FF#32 = true) ∧
    (let s := signalled toRd; s.signals.memWrite = false ∧ s.signals.memRead = false) ∧
    (let s := signalled (loading 0xFF#32);
      s.signals.memRead = true ∧ inArray s.cfg 0x0FFF#32 = false ∧ inArray s.cfg 0x1200#32 = false) := by decide

/-- `adding` with another value in `x[2]`. -/
def calling (num : Word) : State := machineWith 0x0000000C#32 [(2#5, num), (4#5, 42#32)]

theorem witness_SyscallPresentsRequest :
    (∃ t, exec .syscall (calling 1#32) = .next t) ∧
    [1#32, 2#32, 3#32, 4#32, 10#32, 11#32, 17#32, 34#32].map (fun n => (calling n).reg 2#5) =
      [1#32, 2#32, 3#32, 4#32, 10#32, 11#32, 17#32, 34#32] ∧
    (calling 99#32).reg 2#5 ∉ [1#32, 2#32, 3#32, 4#32, 10#32, 11#32, 17#32, 34#32] :=
  ⟨exec_next _ _, by decide, by decide⟩

theorem witness_SyscallSignalsOrExits :
    (calling 10#32).reg 2#5 = 10#32 ∧ (calling 17#32).reg 2#5 = 17#32 ∧
    ((calling 0#32).reg 2#5 ≠ 10#32 ∧ (calling 0#32).reg 2#5 ≠ 17#32) := by decide

/-- The clauses of `ResultToRd` and `ResultToRt`: a destination that is not 0, the highest one, and 0. -/
theorem witness_results : (1#5 ≠ 0#5) ∧ (31#5 ≠ 0#5) ∧ (0#5 = 0#5) := by decide

/-- The clauses of `LoadOf` and `StoreOf`: the first and last byte of the array, and the bytes just outside it. -/
theorem witness_accesses :
    (let s := machineWith 0x8E09FFFF#32 [(16#5, 0x1000#32)];
      inArray s.cfg (s.reg 16#5 + (0xFFFF#16).signExtend 32) = false ∧
      inArray s.cfg (s.reg 16#5 + (0x0000#16).signExtend 32) = true ∧
      inArray s.cfg (s.reg 16#5 + (0x01FF#16).signExtend 32) = true ∧
      inArray s.cfg (s.reg 16#5 + (0x0200#16).signExtend 32) = false) ∧ (9#5 ≠ 0#5) ∧ (0#5 = 0#5) := by decide

/-- A machine with a dividend in `x[8]` and a divisor in `x[9]`. -/
def dividing (n d : Word) : State := machineWith 0x0109001A#32 [(8#5, n), (9#5, d)]

theorem witness_DivideTruncatesOrFaults :
    (dividing 5#32 0#32).reg 9#5 = 0#32 ∧
    ((dividing 0x80000000#32 0xFFFFFFFF#32).reg 8#5 = 0x80000000#32 ∧
      (dividing 0x80000000#32 0xFFFFFFFF#32).reg 9#5 = 0xFFFFFFFF#32) ∧
    (let s := dividing 0x80000001#32 0xFFFFFFFF#32;
      s.reg 9#5 ≠ 0#32 ∧ ¬ (s.reg 8#5 = 0x80000000#32 ∧ s.reg 9#5 = 0xFFFFFFFF#32)) ∧
    (let s := dividing 0x80000000#32 1#32;
      s.reg 9#5 ≠ 0#32 ∧ ¬ (s.reg 8#5 = 0x80000000#32 ∧ s.reg 9#5 = 0xFFFFFFFF#32)) := by decide

theorem witness_BranchesTakenOrNot :
    (dividing 3#32 3#32).reg 8#5 = (dividing 3#32 3#32).reg 9#5 ∧
    (dividing 3#32 4#32).reg 8#5 ≠ (dividing 3#32 4#32).reg 9#5 := by decide

theorem witness_RegisterResultFrame :
    destination (.lw 9#5 16#5 0#16) = some 9#5 ∧ (∃ t, exec (.lw 9#5 16#5 0#16) adding = .next t) ∧
    destination (.add 10#5 8#5 9#5) = some 10#5 ∧ (∃ t, exec (.add 10#5 8#5 9#5) adding = .next t) :=
  ⟨rfl, exec_next _ _, rfl, exec_next _ _⟩

theorem witness_HiLoWriterFrame :
    writesHiLo (.mthi 8#5) = true ∧ (∃ t, exec (.mthi 8#5) adding = .next t) ∧ writesHiLo (.mtlo 8#5) = true ∧
    ∃ t, exec (.mtlo 8#5) adding = .next t := ⟨rfl, exec_next _ _, rfl, exec_next _ _⟩

theorem witness_ControlTransferFrame :
    (∃ rs, Instr.jr 8#5 = .jr rs) ∧ (∃ t, exec (.jr 8#5) adding = .next t) ∧ ∃ t, exec .syscall (calling 1#32) = .next t :=
  ⟨⟨_, rfl⟩, exec_next _ _, exec_next _ _⟩

theorem witness_LinkFrame :
    (∃ rs, Instr.jalr 8#5 = .jalr rs) ∧ (∃ t, exec (.jalr 8#5) adding = .next t) ∧
    (∃ x, Instr.jal 0#26 = .jal x) ∧ ∃ t, exec (.jal 0#26) adding = .next t :=
  ⟨⟨_, rfl⟩, exec_next _ _, ⟨_, rfl⟩, exec_next _ _⟩

/-- One store inside the array and one outside. -/
theorem witness_StoreFrame :
    let s := machineWith 0xA2090000#32 [(16#5, 0x11FF#32)]
    storeOperands (.sb 9#5 16#5 0#16) = some (16#5, 0#16) ∧ (∃ t, exec (.sb 9#5 16#5 0#16) s = .next t) ∧
    inArray s.cfg (effectiveAddress (s.reg 16#5) 0#16) = true ∧
    storeOperands (.sw 9#5 16#5 1#16) = some (16#5, 1#16) ∧ (∃ t, exec (.sw 9#5 16#5 1#16) s = .next t) ∧
    inArray s.cfg (effectiveAddress (s.reg 16#5) 1#16) = false :=
  ⟨rfl, exec_next _ _, by decide, rfl, exec_next _ _, by decide⟩

theorem witness_DefaultAdmitsCoreOnly :
    decode Config.reference 0x01095020#32 = .ok (.add 10#5 8#5 9#5) ∧ (Instr.addu 10#5 8#5 9#5).optionalOp = some .addu := by
  decide

end Sys2Proof.Tests
end

section

/-! ### Encoding, and decoding what was encoded (R99)

The word of an instruction selects the instruction's own row (`Laws.OwnRow`); mnemonics are unique in the opcode map, so
that row is the one named like the instruction, and its `build` reads back the operands that `encode` packed. -/

namespace Sys2Proof

open Sys2Proof.Effect

/-- The family `Laws.OwnRow`, as one lemma over the instruction. -/
theorem Laws.ownRow : ∀ i : Instr, Laws.OwnRow.Statement i
  | .add rd rs rt => OwnRow.add rd rs rt
  | .sub rd rs rt => OwnRow.sub rd rs rt
  | .and rd rs rt => OwnRow.and rd rs rt
  | .or rd rs rt => OwnRow.or rd rs rt
  | .nor rd rs rt => OwnRow.nor rd rs rt
  | .xor rd rs rt => OwnRow.xor rd rs rt
  | .sll rd rt shamt => OwnRow.sll rd rt shamt
  | .srl rd rt shamt => OwnRow.srl rd rt shamt
  | .sra rd rt shamt => OwnRow.sra rd rt shamt
  | .slt rd rs rt => OwnRow.slt rd rs rt
  | .jr rs => OwnRow.jr rs
  | .jalr rs => OwnRow.jalr rs
  | .mfhi rd => OwnRow.mfhi rd
  | .mflo rd => OwnRow.mflo rd
  | .mthi rs => OwnRow.mthi rs
  | .mtlo rs => OwnRow.mtlo rs
  | .mult rs rt => OwnRow.mult rs rt
  | .multu rs rt => OwnRow.multu rs rt
  | .div rs rt => OwnRow.div rs rt
  | .divu rs rt => OwnRow.divu rs rt
  | .syscall => OwnRow.syscall
  | .addi rt rs imm => OwnRow.addi rt rs imm
  | .andi rt rs imm => OwnRow.andi rt rs imm
  | .ori rt rs imm => OwnRow.ori rt rs imm
  | .xori rt rs imm => OwnRow.xori rt rs imm
  | .lui rt imm => OwnRow.lui rt imm
  | .beq rs rt imm => OwnRow.beq rs rt imm
  | .bne rs rt imm => OwnRow.bne rs rt imm
  | .lb rt rs imm => OwnRow.lb rt rs imm
  | .lh rt rs imm => OwnRow.lh rt rs imm
  | .lw rt rs imm => OwnRow.lw rt rs imm
  | .sb rt rs imm => OwnRow.sb rt rs imm
  | .sh rt rs imm => OwnRow.sh rt rs imm
  | .sw rt rs imm => OwnRow.sw rt rs imm
  | .j target => OwnRow.j target
  | .jal target => OwnRow.jal target
  | .addu rd rs rt => OwnRow.addu rd rs rt
  | .subu rd rs rt => OwnRow.subu rd rs rt
  | .sltu rd rs rt => OwnRow.sltu rd rs rt
  | .sllv rd rt rs => OwnRow.sllv rd rt rs
  | .srlv rd rt rs => OwnRow.srlv rd rt rs
  | .srav rd rt rs => OwnRow.srav rd rt rs
  | .addiu rt rs imm => OwnRow.addiu rt rs imm
  | .slti rt rs imm => OwnRow.slti rt rs imm
  | .sltiu rt rs imm => OwnRow.sltiu rt rs imm
  | .lbu rt rs imm => OwnRow.lbu rt rs imm
  | .lhu rt rs imm => OwnRow.lhu rt rs imm

/-- The row of the opcode map with a given mnemonic. -/
def rowNamed (m : String) : Option Row := opcodeTable.find? fun r => r.mnemonic == m

/-- No two rows of the opcode map have one mnemonic (R95). -/
theorem opcodeTable_mnemonic_nodup : (opcodeTable.map Row.mnemonic).Nodup := by
  decide

/-- The opcode and funct of an encoded instruction select the row with its mnemonic (R84, R95). -/
theorem findRow_encode {i : Instr} {r : Row} (hnamed : rowNamed i.record.mnemonic = some r) :
    findRow (encode i) = some r := by
  obtain ⟨q, hfind, hq, -⟩ := Laws.ownRow i
  have hr : r.mnemonic = i.record.mnemonic := by simpa using List.find?_some hnamed
  have hqr : q = r := List.inj_on_of_nodup_map opcodeTable_mnemonic_nodup (List.mem_of_find?_eq_some hfind)
    (List.mem_of_find?_eq_some hnamed) (hq.trans hr.symm)
  rw [hfind, hqr]

/-- An instruction is admitted (R90) exactly when the row its encoding selects is. -/
theorem admitted_eq_wellFormed {i : Instr} {r : Row} (c : Config) (hfind : findRow (encode i) = some r) :
    r.admitted c = i.wellFormed c := by
  obtain ⟨q, hq, -, -, -, hopt⟩ := Laws.ownRow i
  obtain rfl : q = r := Option.some.inj (hq.symm.trans hfind)
  cases ho : i.optionalOp <;> simp [Row.admitted, Instr.wellFormed, hopt, ho]

/-- A row accepts the encoding of an instruction under either decode setting (R88, R89) and builds the instruction
from it. -/
structure Row.Inverts (r : Row) (i : Instr) : Prop where
  link : r.linkRd = true → fieldRd (encode i) = Reg.ra
  zero : ∀ f ∈ r.zero, f.value (encode i) = 0#5
  build : r.build (encode i) = i

/-- An admitted row makes its instruction of a word that has the fields it fixes (R88 to R90). -/
theorem Row.decode_eq_ok {c : Config} {w : Word} {r : Row} (hadm : r.admitted c = true)
    (hlink : r.linkRd = true → fieldRd w = Reg.ra) (hzero : ∀ f ∈ r.zero, f.value w = 0#5) :
    r.decode c w = .ok (r.build w) := by
  have hlinkOk : r.linkOk w = true := by
    cases hl : r.linkRd
    · simp [Row.linkOk, hl]
    · simp [Row.linkOk, hlink hl]
  have hall : (r.zero.all fun f => f.value w == 0#5) = true := by simpa using hzero
  simp [Row.decode, hadm, hlinkOk, Row.zeroFieldsOk, hall]

/-- Every instruction is inverted by the row with its mnemonic: what the row fixes, `encode` has packed so, and what the
row reads are the operands in their positions (the field laws of `packR`, `packI` and `packJ`). -/
theorem exists_row_inverts (i : Instr) : ∃ r, rowNamed i.record.mnemonic = some r ∧ r.Inverts i := by
  cases i
  all_goals exact ⟨_, rfl,
    { link := by simp [encode]
      zero := by simp [FixedField.value, encode]
      build := by simp [encode] }⟩

/-- Decoding the encoded word of an admitted instruction gives the instruction back (R99). -/
theorem decode_encode {c : Config} {i : Instr} (hwf : i.wellFormed c = true) : decode c (encode i) = .ok i := by
  obtain ⟨r, hnamed, hinv⟩ := exists_row_inverts i
  have hfind := findRow_encode hnamed
  have hadm : r.admitted c = true := (admitted_eq_wellFormed c hfind).trans hwf
  calc decode c (encode i) = r.decode c (encode i) := decode_of_findRow hfind
    _ = .ok (r.build (encode i)) := Row.decode_eq_ok hadm hinv.link hinv.zero
    _ = .ok i := by rw [hinv.build]

/-- The record of an instruction packs to the instruction's word. -/
theorem word_record (i : Instr) : i.record.word = some (encode i) := by
  cases i <;> rfl

/-- A record that packs to a word has one of the three formats, and the word is that format's (R81 to R83). -/
theorem Record.word_cases {r : Record} {w : Word} (h : r.word = some w) :
    r.format = some .r ∧ w = wordR r.rs r.rt r.rd r.shamt r.id ∨
    r.format = some .i ∧ w = wordI r.id r.rs r.rt r.imm ∨
    r.format = some .j ∧ w = wordJ r.id r.target := by
  unfold Record.word at h
  split at h
  next hf => exact .inl ⟨hf, (Option.some.inj h).symm⟩
  next hf => exact .inr (.inl ⟨hf, (Option.some.inj h).symm⟩)
  next hf => exact .inr (.inr ⟨hf, (Option.some.inj h).symm⟩)
  next => cases h

/-- Settles O2: the packing is that of the instruction's record, and the round trip goes through the row of the opcode map
with the instruction's mnemonic, which inverts its encoding. -/
theorem encodePacksAndDecodesBack : Obligations.EncodePacksAndDecodesBack :=
  fun _ i => ⟨Record.word_cases (word_record i), word_record i, decode_encode⟩

end Sys2Proof
end

section

/-! ### Register commits, register-write control and the PC updater (R136, R137, R140, R141) -/

namespace Sys2Proof.Machine

/-- A commit to an index that is 0 or names no register (R137). -/
theorem State.commit_outOfRange (s : State) (v : Word) {i : Nat} (h : i = 0 ∨ 31 < i) :
    s.commit i v = .error (.badReg i) := dif_pos h

/-- Reading any register of a state whose register file is that of `s` with one register other than 0 set (R20, R21). -/
theorem State.reg_of_regs_set {s t : State} {d : Reg} {v : Word} (h : d ≠ 0#5)
    (ht : t.regs = s.regs.set d.toNat v d.isLt) (r : Reg) : t.reg r = if r = d then v else s.reg r := by
  rw [State.reg_congr (s := { s with regs := s.regs.set d.toNat v d.isLt }) ht]
  split
  next hr => rw [hr, s.reg_set_same d v h]
  next hr => exact s.reg_set_other d r v hr

/-- Register write without `regWrite` and `memToReg`: no write and no report (R136). -/
theorem State.registerWrite_idle {s : State} (rd rt : Reg) (v : Word) (hw : s.signals.regWrite = false)
    (hm : s.signals.memToReg = false) : s.registerWrite rd rt v = .ok { s with changedReg := none } := by
  simp [State.registerWrite, hw, hm]

/-- Register write of a load: a commit to rt (R136). -/
theorem State.registerWrite_load {s : State} (rd rt : Reg) (v : Word) (hm : s.signals.memToReg = true)
    (hr : s.signals.memRead = true) : s.registerWrite rd rt v = s.commit rt.toNat v := by
  simp [State.registerWrite, hm, hr]

/-- Register write of `jal` and `jalr`: the return-address register is reported, not written again (R136). -/
theorem State.registerWrite_link {s : State} (rd rt : Reg) (v : Word)
    (hload : ¬ (s.signals.memToReg = true ∧ s.signals.memRead = true)) (hj : s.signals.jump = true)
    (hw : s.signals.regWrite = true) : s.registerWrite rd rt v = .ok { s with changedReg := some Reg.ra } := by
  simp [State.registerWrite, hload, hj, hw]

/-- Every other register write: a commit to the slot `regDst` selects (R136). -/
theorem State.registerWrite_slot {s : State} (rd rt : Reg) (v : Word)
    (hload : ¬ (s.signals.memToReg = true ∧ s.signals.memRead = true))
    (hlink : ¬ (s.signals.jump = true ∧ s.signals.regWrite = true))
    (hactive : s.signals.regWrite = true ∨ s.signals.memToReg = true) :
    s.registerWrite rd rt v = s.commit (if s.signals.regDst then rd else rt).toNat v := by
  have hidle : (!(s.signals.regWrite || s.signals.memToReg)) = false := by rcases hactive with h | h <;> simp [h]
  simp [State.registerWrite, hidle, hload, hlink]

/-- The PC updater on a branch taken or a jump (R140, R141). -/
theorem State.updatePc_redirect {s : State} (result : Word)
    (h : s.signals.branch = true ∨ s.signals.jump = true) :
    s.updatePc result = { s with pc := result, pcMirror := result } := by
  simp [State.updatePc, h]

/-- The PC updater on any other instruction (R140, R141). -/
theorem State.updatePc_advance {s : State} (result : Word) (hb : s.signals.branch = false)
    (hj : s.signals.jump = false) :
    s.updatePc result = { s with pc := s.pc + 4#32, pcMirror := s.pc + 4#32 } := by
  simp [State.updatePc, hb, hj]

/-- Entry 32 of the register file is the mirror of `pc` (R24). -/
@[simp] theorem State.fileEntry_pcMirror (s : State) : s.fileEntry 32 = some s.pcMirror := rfl

end Sys2Proof.Machine

namespace Sys2Proof

open Sys2Proof.Machine

/-- Settles O27: an index of 1 to 31 is the number of a register field other than 0, whose commit is `commit_reg`. -/
theorem commitWritesOrRefuses : Obligations.CommitWritesOrRefuses := by
  intro s i v
  refine ⟨s.commit_outOfRange v, fun hpos hle => ?_⟩
  obtain ⟨d, rfl⟩ : ∃ d : Reg, d.toNat = i := ⟨BitVec.ofNatLT i (by omega), rfl⟩
  have hd : d ≠ 0#5 := fun h => by simp [h] at hpos
  refine ⟨_, s.commit_reg d v hd, fun r => ?_, by simp, rfl⟩
  simpa [BitVec.toNat_inj] using State.reg_of_regs_set hd rfl r

/-- Settles O28: one lemma for each branch of the register-write control. -/
theorem registerWriteControl : Obligations.RegisterWriteControl := by
  intro s rd rt v
  refine ⟨State.registerWrite_idle rd rt v, State.registerWrite_load rd rt v, State.registerWrite_link rd rt v,
    fun hload hlink hactive => ?_⟩
  rw [State.registerWrite_slot rd rt v hload hlink hactive]
  split <;> rfl

/-- Settles O29: one lemma for each case of the updater; in both the mirror takes the value of `pc`. -/
theorem pcUpdaterRedirectsOrAdvances : Obligations.PcUpdaterRedirectsOrAdvances :=
  fun s result =>
    ⟨State.updatePc_redirect result, State.updatePc_advance result, (s.updatePc result).fileEntry_pcMirror⟩

end Sys2Proof
end

section

/-! ### Faulted and ended runs (R37, R321) -/

namespace Sys2Proof

open Sys2Proof.Machine

/-- Settles O10: by the inversion of `step`, only a running state has a next state, so a faulted state is final (R321). -/
theorem endedRunTakesNoStep : Obligations.EndedRunTakesNoStep := by
  intro s hended t hstep
  obtain ⟨hrunning, -⟩ := step_cases hstep
  exact hended hrunning

end Sys2Proof
end

section

/-! ### The image load (R343, R344) -/

namespace Sys2Proof.Machine

/-- The reset memory reads 0 everywhere (R340). -/
theorem Memory.readWord_nil (a : Nat) : Memory.readWord [] a = 0#32 :=
  have hbytes : wordOfBytes Memory.unlisted Memory.unlisted Memory.unlisted Memory.unlisted = 0#32 := by decide
  hbytes

/-- Storing an image leaves every word that shares no byte with it as it was. -/
theorem Memory.readWord_storeImage_other (c : Config) (image : List Word) (m : Memory) (k a : Nat)
    (h : a + 4 ≤ wordAddress c k ∨ wordAddress c (k + image.length) ≤ a) :
    (m.storeImage c k image).readWord a = m.readWord a := by
  induction image generalizing m k with
  | nil => rfl
  | cons w rest ih =>
    simp only [wordAddress, List.length_cons] at h
    calc ((m.writeWord (wordAddress c k) w).storeImage c (k + 1) rest).readWord a
        = (m.writeWord (wordAddress c k) w).readWord a := ih _ _ (by simp only [wordAddress]; omega)
      _ = m.readWord a := Memory.readWord_writeWord_other _ _ _ _ (by simp only [wordAddress]; omega)

/-- Word j of an image stored from word k on is read back at word k + j. -/
theorem Memory.readWord_storeImage_same (c : Config) (image : List Word) (m : Memory) (k j : Nat) (hm : m.wf)
    (hj : j < image.length) : (m.storeImage c k image).readWord (wordAddress c (k + j)) = image[j] := by
  induction image generalizing m k j with
  | nil => cases hj
  | cons w rest ih =>
    have hm' : (m.writeWord (wordAddress c k) w).wf := Memory.wf_writeWord m _ w hm
    cases j with
    | zero =>
      calc ((m.writeWord (wordAddress c k) w).storeImage c (k + 1) rest).readWord (wordAddress c k)
          = (m.writeWord (wordAddress c k) w).readWord (wordAddress c k) :=
            Memory.readWord_storeImage_other _ _ _ _ _ (.inl (Nat.le_refl _))
        _ = w := Memory.readWord_writeWord_same _ _ _ hm
    | succ j =>
      have hnext := ih _ (k + 1) j hm' (Nat.lt_of_succ_lt_succ hj)
      rwa [Nat.add_right_comm] at hnext

/-- The address of a word below 2^32, as a 32-bit sum, does not wrap. -/
theorem toNat_textBase_add {c : Config} {k : Nat} (h : wordAddress c k < 2 ^ 32) :
    (c.textBase + BitVec.ofNat 32 (4 * k)).toNat = wordAddress c k := by
  simp only [wordAddress] at h ⊢
  rw [BitVec.toNat_add, BitVec.toNat_ofNat, Nat.add_mod_mod, Nat.mod_eq_of_lt h]

/-- An image of more than N words is refused with its count (R318, R343). -/
theorem State.load_tooLarge {s : State} {image : List Word} (h : s.cfg.instrCapacity < image.length) :
    s.load image = .refused (.imageTooLarge image.length) := if_pos h

/-- An image of 1 to N words is stored, `LAST_ADDR` names its last word, and the run starts (R343, R344). -/
theorem State.load_words {s : State} {image : List Word} (hle : image.length ≤ s.cfg.instrCapacity)
    (hpos : 0 < image.length) :
    s.load image = .next { s with
      mem := s.mem.storeImage s.cfg 0 image
      lastAddr := s.cfg.textBase + BitVec.ofNat 32 (4 * (image.length - 1))
      status := .running } := by
  rw [State.load, if_neg (Nat.not_lt.mpr hle), if_neg (Nat.pos_iff_ne_zero.mp hpos)]

end Sys2Proof.Machine

namespace Sys2Proof

open Sys2Proof.Machine

/-- Settles O14: the stored image is read back word by word, a word past it reads as in the reset memory, and the
constraint that the array fits the address space (R9) keeps the sum for `LAST_ADDR` from wrapping. -/
theorem imageLoadPlacesWords : Obligations.ImageLoadPlacesWords := by
  intro c image hwf
  refine ⟨State.load_tooLarge (s := State.cleared c), fun hle hpos => ?_⟩
  obtain ⟨-, -, -, hfits⟩ := hwf
  have hlast : wordAddress c (image.length - 1) < 2 ^ 32 := by simp only [wordAddress]; omega
  refine ⟨_, State.load_words (s := State.cleared c) hle hpos, fun k hk => ?_, fun k hk => ?_,
    toNat_textBase_add hlast, fun _ => rfl, rfl, rfl, rfl, rfl, rfl⟩
  · have hread := Memory.readWord_storeImage_same c image [] 0 k Memory.wf_nil hk
    rw [Nat.zero_add] at hread
    exact hread
  · have hpast : wordAddress c (0 + image.length) ≤ wordAddress c k := by simp only [wordAddress]; omega
    exact (Memory.readWord_storeImage_other c image [] 0 _ (.inr hpast)).trans (Memory.readWord_nil _)

end Sys2Proof
end

section

/-! ### Whole after-states of the executions

One lemma for each row of control signals (R126), through the laws of `State.finishCycle`; an instruction's statement
then only shows which cycle the instruction is. -/

namespace Sys2Proof.Machine

open Sys2Proof.Effect

/-- A cycle with the signals of an R-format result writes rd, or raises `BAD_REG` (R136 to R138). -/
theorem resultToRd_of_cycle {i : Instr} {rd : Reg} {v : State → Word}
    (h : ∀ s, ∃ rt rtv, exec i s = plainCycle s rd rt rtv Signals.rResult (v s)) : ResultToRd i rd v := by
  intro s
  obtain ⟨rt, rtv, hexec⟩ := h s
  refine ⟨fun hd => ?_, fun hd => ?_⟩
  · exact hexec.trans (congrArg Host.Outcome.next (s.finishCycle_rResult rd rt rtv _ hd))
  · subst hd
    exact hexec.trans (congrArg Host.Outcome.next (s.finishCycle_rResult_zero rt rtv _))

/-- A cycle with the signals of an I-format result writes rt, or raises `BAD_REG` (R136 to R138). -/
theorem resultToRt_of_cycle {i : Instr} {rt : Reg} {v : State → Word}
    (h : ∀ s, ∃ rtv, exec i s = plainCycle s 0#5 rt rtv Signals.iResult (v s)) : ResultToRt i rt v := by
  intro s
  obtain ⟨rtv, hexec⟩ := h s
  refine ⟨fun hd => ?_, fun hd => ?_⟩
  · exact hexec.trans (congrArg Host.Outcome.next (s.finishCycle_iResult 0#5 rt rtv _ hd))
  · subst hd
    exact hexec.trans (congrArg Host.Outcome.next (s.finishCycle_iResult_zero 0#5 rtv _))

/-- Every load cycle: `MEM_FAULT` outside the array, else the masked word to rt or `BAD_REG` (R250, R319). -/
theorem loadOf_of_cycle {i : Instr} {mask : Word} {rt rs : Reg} {imm : BitVec 16}
    (h : ∀ s, exec i s = loadCycle mask rt rs imm s) : LoadOf i mask rt rs imm := by
  intro s
  refine ⟨fun ha => ?_, fun ha hd => ?_, fun ha hd => ?_⟩
  · exact (h s).trans (congrArg Host.Outcome.next (s.finishCycle_load_fault 0#5 rt _ _ mask ha))
  · exact (h s).trans (congrArg Host.Outcome.next (s.finishCycle_load 0#5 rt _ _ mask ha hd))
  · subst hd
    exact (h s).trans (congrArg Host.Outcome.next (s.finishCycle_load_zero 0#5 _ _ mask ha))

/-- Every store cycle: the masked rt over the whole word, or `MEM_FAULT` outside the array (R58, R250). -/
theorem storeOf_of_cycle {i : Instr} {mask : Word} {rt rs : Reg} {imm : BitVec 16}
    (h : ∀ s, exec i s = storeCycle mask rt rs imm s) : StoreOf i mask rt rs imm := fun s =>
  ⟨fun ha => (h s).trans (congrArg Host.Outcome.next (s.finishCycle_store 0#5 rt _ _ mask ha)),
    fun ha => (h s).trans (congrArg Host.Outcome.next (s.finishCycle_store_fault 0#5 rt _ _ mask ha))⟩

/-- A write of HI and LO (R128, R190). -/
theorem writeHiLo_eq (rs rt : Reg) (hi lo : Word) (s : State) :
    writeHiLo rs rt hi lo s = .next (wroteHiLo s hi lo) :=
  congrArg Host.Outcome.next (State.finishCycle_hiLo { s with hi := hi, lo := lo } 0#5 rt _ _)

/-- A fault of execute (R129, R317). -/
theorem faultInExecute_eq (rt : Reg) (f : CoreFault) (s : State) :
    faultInExecute rt f s = .next (faulted s quiet none f) :=
  congrArg Host.Outcome.next (s.finishCycle_error 0#5 rt _ _ _ f rfl)

/-- `mthi` (R193). -/
theorem runs_mthi (s : State) (rs : Reg) : Runs (.mthi rs) s (wroteHiLo s (s.reg rs) s.lo) := writeHiLo_eq ..

/-- `mtlo` (R194). -/
theorem runs_mtlo (s : State) (rs : Reg) : Runs (.mtlo rs) s (wroteHiLo s s.hi (s.reg rs)) := writeHiLo_eq ..

/-- `mult` (R195). -/
theorem runs_mult (s : State) (rs rt : Reg) : Runs (.mult rs rt) s
    (wroteHiLo s (highHalf (productSigned (s.reg rs) (s.reg rt))) (lowHalf (productSigned (s.reg rs) (s.reg rt)))) :=
  writeHiLo_eq ..

/-- `multu` (R196). -/
theorem runs_multu (s : State) (rs rt : Reg) : Runs (.multu rs rt) s
    (wroteHiLo s (highHalf (productUnsigned (s.reg rs) (s.reg rt)))
      (lowHalf (productUnsigned (s.reg rs) (s.reg rt)))) :=
  writeHiLo_eq ..

section Divide

variable {s : State} {rs rt : Reg}

/-- `div` by zero (R197, R317). -/
theorem runs_div_by_zero (h : s.reg rt = 0#32) : Runs (.div rs rt) s (faulted s quiet none .divByZero) :=
  (if_pos h).trans (faultInExecute_eq rt _ s)

/-- `div` of the least integer by -1 (R197, R317). -/
theorem runs_div_overflow (hs : s.reg rs = 0x80000000#32) (ht : s.reg rt = 0xFFFFFFFF#32) :
    Runs (.div rs rt) s (faulted s quiet none .divOverflow) := by
  have hne : s.reg rt ≠ 0#32 := by rw [ht]; decide
  exact (if_neg hne).trans ((if_pos ⟨hs, ht⟩).trans (faultInExecute_eq rt _ s))

/-- `div` outside its two corners (R197). -/
theorem runs_div (hne : s.reg rt ≠ 0#32) (hov : ¬ (s.reg rs = 0x80000000#32 ∧ s.reg rt = 0xFFFFFFFF#32)) :
    Runs (.div rs rt) s
      (wroteHiLo s (remainderSigned (s.reg rs) (s.reg rt)) (quotientSigned (s.reg rs) (s.reg rt))) :=
  (if_neg hne).trans ((if_neg hov).trans (writeHiLo_eq rs rt _ _ s))

/-- `divu` by zero (R198, R317). -/
theorem runs_divu_by_zero (h : s.reg rt = 0#32) : Runs (.divu rs rt) s (faulted s quiet none .divByZero) :=
  (if_pos h).trans (faultInExecute_eq rt _ s)

/-- `divu` by any other divisor (R198). -/
theorem runs_divu (hne : s.reg rt ≠ 0#32) : Runs (.divu rs rt) s
    (wroteHiLo s (remainderUnsigned (s.reg rs) (s.reg rt)) (quotientUnsigned (s.reg rs) (s.reg rt))) :=
  (if_neg hne).trans (writeHiLo_eq rs rt _ _ s)

end Divide

/-- `jr` (R181). -/
theorem runs_jr (s : State) (rs : Reg) : Runs (.jr rs) s (wentTo s { jump := true, regDst := true } (s.reg rs)) :=
  congrArg Host.Outcome.next (s.finishCycle_jr 0#5 0#5 _ _)

/-- `j` (R271). -/
theorem runs_j (s : State) (target : BitVec 26) :
    Runs (.j target) s (wentTo s { jump := true } (jumpTarget target)) :=
  congrArg Host.Outcome.next (s.finishCycle_j 0#5 0#5 _ _)

/-- `jalr`, with the old value of rs as the target (R127, R182). -/
theorem runs_jalr (s : State) (rs : Reg) :
    Runs (.jalr rs) s (linkedTo s { jump := true, regWrite := true, regDst := true } (s.reg rs)) :=
  congrArg Host.Outcome.next (s.link.finishCycle_jalr Reg.ra 0#5 _ _)

/-- `jal` (R127, R272). -/
theorem runs_jal (s : State) (target : BitVec 26) :
    Runs (.jal target) s (linkedTo s { jump := true, regWrite := true } (jumpTarget target)) :=
  congrArg Host.Outcome.next (s.link.finishCycle_jal 0#5 0#5 _ _)

/-- A branch taken goes to its target (R240). -/
theorem branchCycle_taken (rt : Reg) (rtv : Word) (imm : BitVec 16) (s : State) :
    branchCycle true rt rtv imm s = .next (wentTo s (branching true) (branchTarget s.pc imm)) :=
  congrArg Host.Outcome.next (s.finishCycle_branch 0#5 rt rtv _ true)

/-- A branch not taken goes to the next word (R240). -/
theorem branchCycle_notTaken (rt : Reg) (rtv : Word) (imm : BitVec 16) (s : State) :
    branchCycle false rt rtv imm s = .next (wentTo s (branching false) (s.pc + 4#32)) :=
  congrArg Host.Outcome.next (s.finishCycle_branch 0#5 rt rtv _ false)

/-- `syscall`: the status it leaves (R210, R212). -/
def syscallStatus (s : State) : RunStatus :=
  if s.reg Reg.v0 = 10#32 then .haltedExit none
  else if s.reg Reg.v0 = 17#32 then .haltedExit (some (s.reg Reg.a0)) else s.status

/-- `syscall`: the signal, the advance of the PC, and the halt check (R210, R212). -/
theorem runs_syscall (s : State) : Runs .syscall s
    { wentTo s (Signals.syscall (s.reg Reg.v0)) (s.pc + 4#32) with status := syscallStatus s } :=
  congrArg Host.Outcome.next (s.finishCycle_syscall 0#5 0#5 _ _ _)

end Sys2Proof.Machine
end

section

/-! ### What an execution can do, by the kind of the instruction -/

namespace Sys2Proof.Machine

open Sys2Proof.Effect

/-- What an instruction is there to change, besides `pc`. -/
inductive Kind where
  /-- It writes a destination register through the register-write stage. -/
  | toRegister (d : Reg)
  /-- It writes the word at an offset from a base register. -/
  | toMemory (rs : Reg) (imm : BitVec 16)
  | toHiLo
  /-- It writes the link register in execute. -/
  | link
  /-- It may end the run. -/
  | trap
  /-- It only moves `pc`. -/
  | transfer

/-- The kind of an instruction, after the lists of the statements. -/
def kind (i : Instr) : Kind :=
  match destination i, storeOperands i with
  | some d, _ => .toRegister d
  | none, some (rs, imm) => .toMemory rs imm
  | none, none =>
    match i with
    | .syscall => .trap
    | .jalr _ | .jal _ => .link
    | _ => if writesHiLo i then .toHiLo else .transfer

/-- The instructions of these kinds complete in every state. -/
def Kind.NeverFaults : Kind → Prop
  | .link | .trap | .transfer => True
  | .toRegister _ | .toMemory _ _ | .toHiLo => False

/-- The instructions of R314's list. -/
theorem kind_of_destination {i : Instr} {d : Reg} (h : destination i = some d) : kind i = .toRegister d := by
  simp [kind, h]

/-- The stores. -/
theorem kind_of_storeOperands {i : Instr} {rs : Reg} {imm : BitVec 16} (h : storeOperands i = some (rs, imm)) :
    kind i = .toMemory rs imm := by
  have hd : destination i = none := by cases i <;> simp [storeOperands, destination] at h ⊢
  simp [kind, h, hd]

/-- The HI/LO writers of R128. -/
theorem kind_of_writesHiLo {i : Instr} (h : writesHiLo i = true) : kind i = .toHiLo := by
  cases i <;> simp_all [writesHiLo, kind, destination, storeOperands]

/-- No other instruction is of the HI/LO writers' kind. -/
theorem kind_ne_toHiLo {i : Instr} (h : writesHiLo i = false) : kind i ≠ .toHiLo := by
  cases i <;> simp_all [writesHiLo, kind, destination, storeOperands]

/-- The faults an execution can raise, each with the value it records (R310, R314, R315, R317). -/
def ExecFault (s : State) (f : CoreFault) : Prop :=
  f = .badReg 0 ∨ (∃ a, f = .memFault a ∧ inArray s.cfg a = false) ∨ f = .divByZero ∨ f = .divOverflow

/-- An address a cycle reports, if any, lies in the array. -/
def ReportsInArray (s : State) (address : Option Word) : Prop := ∀ ea, address = some ea → inArray s.cfg ea = true

/-- The next states an instruction of each kind can answer. -/
inductive ExecEffect (s : State) : Kind → State → Prop where
  | wrote (g : ControlSignals) (address : Option Word) (d : Reg) (v : Word) (hd : d ≠ 0#5) (hg : g.error = none)
      (haddress : ReportsInArray s address) : ExecEffect s (.toRegister d) (wrote s g address d v)
  | stored (mask : Word) (rs : Reg) (imm : BitVec 16) (v : Word)
      (hin : inArray s.cfg (effectiveAddress (s.reg rs) imm) = true) :
      ExecEffect s (.toMemory rs imm) (stored s mask (effectiveAddress (s.reg rs) imm) v)
  | wroteHiLo (hi lo : Word) : ExecEffect s .toHiLo (wroteHiLo s hi lo)
  | linkedTo (g : ControlSignals) (target : Word) (hg : g.error = none) : ExecEffect s .link (linkedTo s g target)
  | signalled (num : Word) (status : RunStatus)
      (hstatus : status = s.status ∨ ∃ code, status = .haltedExit code) :
      ExecEffect s .trap { Effect.wentTo s (Signals.syscall num) (s.pc + 4#32) with status := status }
  | wentTo (g : ControlSignals) (target : Word) (hg : g.error = none) : ExecEffect s .transfer (wentTo s g target)
  | faulted (k : Kind) (g : ControlSignals) (address : Option Word) (f : CoreFault) (hk : ¬ k.NeverFaults)
      (hf : ExecFault s f) (haddress : ReportsInArray s address) : ExecEffect s k (faulted s g address f)

/-- A cycle without a memory access reports no address. -/
theorem reportsInArray_none (s : State) : ReportsInArray s none := nofun

/-- A valid access reports its own address. -/
theorem reportsInArray_some {s : State} {ea : Word} (h : inArray s.cfg ea = true) : ReportsInArray s (some ea) := by
  rintro _ ⟨⟩
  exact h

section Effects

variable {i : Instr} {s t : State} {d rs rt : Reg} {imm : BitVec 16} {mask : Word}

/-- Two next states of one execution are one. -/
theorem next_unique {t' : State} (h : Runs i s t) (h' : exec i s = .next t') : t = t' :=
  Host.Outcome.next.inj (h.symm.trans h')

/-- A cycle with a destination either writes it or, when it is register 0, raises `BAD_REG`. -/
theorem effect_of_result {g : ControlSignals} {v : Word} (hg : g.error = none)
    (hres : (d ≠ 0#5 → Runs i s (wrote s g none d v)) ∧ (d = 0#5 → Runs i s (faulted s g none (.badReg 0))))
    (h : exec i s = .next t) : ExecEffect s (.toRegister d) t := by
  obtain ⟨hwrites, hfaults⟩ := hres
  by_cases hd : d = 0#5
  · rw [← next_unique (hfaults hd) h]
    exact .faulted _ _ _ _ id (.inl rfl) (reportsInArray_none s)
  · rw [← next_unique (hwrites hd) h]
    exact .wrote _ _ _ _ hd hg (reportsInArray_none s)

/-- A load has the effects of an instruction with a destination; its faults are `MEM_FAULT` and `BAD_REG` (R319). -/
theorem effect_of_loadOf (hload : LoadOf i mask rt rs imm) (h : exec i s = .next t) :
    ExecEffect s (.toRegister rt) t := by
  obtain ⟨houtside, hreads, hzero⟩ := hload s
  cases ha : inArray s.cfg (s.reg rs + imm.signExtend 32) with
  | false =>
    rw [← next_unique (houtside ha) h]
    exact .faulted _ _ _ _ id (.inr (.inl ⟨_, rfl, ha⟩)) (reportsInArray_none s)
  | true =>
    by_cases hd : rt = 0#5
    · rw [← next_unique (hzero ha hd) h]
      exact .faulted _ _ _ _ id (.inl rfl) (reportsInArray_some ha)
    · rw [← next_unique (hreads ha hd) h]
      exact .wrote _ _ _ _ hd rfl (reportsInArray_some ha)

/-- A store writes its word or raises `MEM_FAULT`. -/
theorem effect_of_storeOf (hstore : StoreOf i mask rt rs imm) (h : exec i s = .next t) :
    ExecEffect s (.toMemory rs imm) t := by
  obtain ⟨hwrites, houtside⟩ := hstore s
  cases ha : inArray s.cfg (s.reg rs + imm.signExtend 32) with
  | false =>
    rw [← next_unique (houtside ha) h]
    exact .faulted _ _ _ _ id (.inr (.inl ⟨_, rfl, ha⟩)) (reportsInArray_none s)
  | true =>
    rw [← next_unique (hwrites ha) h]
    exact .stored _ _ _ _ ha

/-- `div` writes HI and LO but in its two corners (R197). -/
theorem effect_of_div (h : exec (.div rs rt) s = .next t) : ExecEffect s .toHiLo t := by
  by_cases hzero : s.reg rt = 0#32
  · rw [← next_unique (runs_div_by_zero hzero) h]
    exact .faulted _ _ _ _ id (.inr (.inr (.inl rfl))) (reportsInArray_none s)
  · by_cases hov : s.reg rs = 0x80000000#32 ∧ s.reg rt = 0xFFFFFFFF#32
    · rw [← next_unique (runs_div_overflow hov.1 hov.2) h]
      exact .faulted _ _ _ _ id (.inr (.inr (.inr rfl))) (reportsInArray_none s)
    · rw [← next_unique (runs_div hzero hov) h]
      exact .wroteHiLo _ _

/-- `divu` writes HI and LO but for a zero divisor (R198). -/
theorem effect_of_divu (h : exec (.divu rs rt) s = .next t) : ExecEffect s .toHiLo t := by
  by_cases hzero : s.reg rt = 0#32
  · rw [← next_unique (runs_divu_by_zero hzero) h]
    exact .faulted _ _ _ _ id (.inr (.inr (.inl rfl))) (reportsInArray_none s)
  · rw [← next_unique (runs_divu hzero) h]
    exact .wroteHiLo _ _

/-- A branch moves `pc`, taken or not. -/
theorem effect_of_branchCycle {rtv : Word} {taken : Bool} (h : branchCycle taken rt rtv imm s = .next t) :
    ExecEffect s .transfer t := by
  cases taken with
  | false =>
    rw [← Host.Outcome.next.inj ((branchCycle_notTaken rt rtv imm s).symm.trans h)]
    exact .wentTo _ _ rfl
  | true =>
    rw [← Host.Outcome.next.inj ((branchCycle_taken rt rtv imm s).symm.trans h)]
    exact .wentTo _ _ rfl

/-- `syscall` keeps the status or ends the run; it never faults (R212). -/
theorem syscallStatus_cases (s : State) : syscallStatus s = s.status ∨ ∃ code, syscallStatus s = .haltedExit code := by
  unfold syscallStatus
  split
  · exact .inr ⟨_, rfl⟩
  · split
    · exact .inr ⟨_, rfl⟩
    · exact .inl rfl

/-- Everything an execution can do: the inversion of `exec`, by the kind of the instruction. -/
theorem exec_effect (h : exec i s = .next t) : ExecEffect s (kind i) t := by
  cases i
  case add | sub | and | or | nor | xor | sll | srl | sra | slt | mfhi | mflo | addu | subu | sltu | sllv | srlv | srav =>
    exact effect_of_result rfl (resultToRd_of_cycle (fun _ => ⟨_, _, rfl⟩) s) h
  case addi | andi | ori | xori | lui | addiu | slti | sltiu =>
    exact effect_of_result rfl (resultToRt_of_cycle (fun _ => ⟨_, rfl⟩) s) h
  case lb | lh | lw | lbu | lhu => exact effect_of_loadOf (loadOf_of_cycle fun _ => rfl) h
  case sb | sh | sw => exact effect_of_storeOf (storeOf_of_cycle fun _ => rfl) h
  case mthi => exact next_unique (runs_mthi s _) h ▸ .wroteHiLo _ _
  case mtlo => exact next_unique (runs_mtlo s _) h ▸ .wroteHiLo _ _
  case mult => exact next_unique (runs_mult s _ _) h ▸ .wroteHiLo _ _
  case multu => exact next_unique (runs_multu s _ _) h ▸ .wroteHiLo _ _
  case div => exact effect_of_div h
  case divu => exact effect_of_divu h
  case jr => exact next_unique (runs_jr s _) h ▸ .wentTo _ _ rfl
  case j => exact next_unique (runs_j s _) h ▸ .wentTo _ _ rfl
  case beq | bne => exact effect_of_branchCycle h
  case jalr => exact next_unique (runs_jalr s _) h ▸ .linkedTo _ _ rfl
  case jal => exact next_unique (runs_jal s _) h ▸ .linkedTo _ _ rfl
  case syscall => exact next_unique (runs_syscall s) h ▸ .signalled _ _ (syscallStatus_cases s)

end Effects

end Sys2Proof.Machine
end

section

/-! ### What a step can do -/

namespace Sys2Proof.Machine

open Sys2Proof.Effect

/-- While the status is `RUNNING`, a step is one cycle (R147). -/
theorem step_of_running {s : State} (h : s.status = .running) : step s = s.cycle := if_pos h

/-- The check of a fetch address, as numbers (R121). -/
theorem fetchable_iff {c : Config} {pc : Word} :
    fetchable c pc = true ↔ c.textBase.toNat ≤ pc.toNat ∧ (pc.toNat - c.textBase.toNat) % 4 = 0 := by
  simp [fetchable]

section Fetch

variable {s : State}

/-- Past `LAST_ADDR` nothing is fetched (R121). -/
theorem State.fetch_ended (h : s.lastAddr.toNat < s.pc.toNat) : s.fetch = .ended := if_pos h

/-- A misaligned or low `pc` (R121). -/
theorem State.fetch_faulted (hle : s.pc.toNat ≤ s.lastAddr.toNat) (hbad : fetchable s.cfg s.pc = false) :
    s.fetch = .faulted (.fetchFault s.pc) := by
  simp [State.fetch, Nat.not_lt.mpr hle, hbad]

/-- A fetch whose address passes the checks and lies in the array (R121). -/
theorem State.fetch_word (hle : s.pc.toNat ≤ s.lastAddr.toNat) (hok : fetchable s.cfg s.pc = true)
    (hin : inArray s.cfg s.pc = true) : s.fetch = .word (s.mem.readWord (wordBase s.cfg s.pc)) := by
  simp [State.fetch, Nat.not_lt.mpr hle, hok, hin]

/-- The step at the end of the program (R121). -/
theorem step_of_ended (hrun : s.status = .running) (hf : s.fetch = .ended) : step s = .next s.endOfProgram := by
  rw [step_of_running hrun, State.cycle, hf]

/-- The step at a fetch fault (R121). -/
theorem step_of_faulted {f : CoreFault} (hrun : s.status = .running) (hf : s.fetch = .faulted f) :
    step s = .next (faulted s {} none f) := by
  rw [step_of_running hrun, State.cycle, hf]
  rfl

/-- The step at a fetched word (R120). -/
theorem step_of_word {w : Word} (hrun : s.status = .running) (hf : s.fetch = .word w) : step s = s.runWord w := by
  rw [step_of_running hrun, State.cycle, hf]

/-- A word that decodes is executed (R125). -/
theorem State.runWord_ok {w : Word} {i : Instr} (hd : decode s.cfg w = .ok i) : s.runWord w = exec i s := by
  rw [State.runWord, hd]

/-- A word that is `ILLEGAL` faults with the word (R122). -/
theorem State.runWord_illegal {w : Word} {reason : Illegal} (hd : decode s.cfg w = .error reason) :
    s.runWord w = .next (faulted s {} none (.illegalInstruction w)) := by
  rw [State.runWord, hd]
  rfl

end Fetch

/-- The next states a step can answer. -/
inductive StepEffect (s : State) : State → Prop where
  | ended : StepEffect s s.endOfProgram
  | fetchFault : StepEffect s (faulted s {} none (.fetchFault s.pc))
  | illegal (w : Word) (hf : s.fetch = .word w) : StepEffect s (faulted s {} none (.illegalInstruction w))
  | executed (k : Kind) (t : State) (h : ExecEffect s k t) : StepEffect s t

/-- The next states the run of a fetched word can answer. -/
theorem runWord_effect {s t : State} {w : Word} (hf : s.fetch = .word w) (h : s.runWord w = .next t) :
    StepEffect s t := by
  cases hd : decode s.cfg w with
  | error reason => exact Host.Outcome.next.inj ((State.runWord_illegal hd).symm.trans h) ▸ .illegal w hf
  | ok i => exact .executed (kind i) t (exec_effect ((State.runWord_ok hd).symm.trans h))

/-- The inversion of `step`: everything a step that answers a next state can do. -/
theorem step_effect {s t : State} (h : step s = .next t) : s.status = .running ∧ StepEffect s t := by
  obtain ⟨hrun, -⟩ := step_cases h
  refine ⟨hrun, ?_⟩
  rcases s.fetch_cases with ⟨-, hf⟩ | ⟨-, -, hf⟩ | ⟨-, -, -, hf⟩ | ⟨-, -, -, hf⟩
  · exact Host.Outcome.next.inj ((step_of_ended hrun hf).symm.trans h) ▸ .ended
  · exact Host.Outcome.next.inj ((step_of_faulted hrun hf).symm.trans h) ▸ .fetchFault
  · rw [step_of_running hrun, State.cycle, hf] at h
    cases h
  · exact runWord_effect hf ((step_of_word hrun hf).symm.trans h)

end Sys2Proof.Machine
end

section

/-! ### The invariant, kept by every step -/

namespace Sys2Proof.Machine

open Sys2Proof.Effect Sys2Proof.Safety

/-- A register file with a register other than 0 set keeps `x[0]`. -/
theorem getElem_zero_set {regs : Vector Word 32} {d : Reg} (v : Word) (hd : d ≠ 0#5) :
    (regs.set d.toNat v d.isLt)[0] = regs[0] := by
  have hne : d.toNat ≠ 0 := fun h => hd (BitVec.eq_of_toNat_eq h)
  exact Vector.getElem_set_ne _ _ hne

/-- A memory with no byte outside the array keeps none when the word of a valid address is written (R51, R58). -/
theorem inside_writeWord {c : Config} {m : Memory} {ea : Word} (v : Word) (hin : inArray c ea = true)
    (hm : ∀ x ∈ m, c.textBase.toNat ≤ x.1 ∧ x.1 < arrayEnd c) :
    ∀ x ∈ m.writeWord (wordBase c ea) v, c.textBase.toNat ≤ x.1 ∧ x.1 < arrayEnd c := by
  intro x hx
  obtain ⟨hlow, hhigh⟩ := wordBase_bounds hin
  rcases Memory.mem_writeWord hx with hold | ⟨hge, hlt⟩
  · exact hm x hold
  · exact ⟨hlow.trans hge, hlt.trans_le hhigh⟩

/-- The run has not faulted and no error is signalled: the two records agree (R310). -/
theorem error_agrees_of_none {t : State} (hsignal : t.signals.error = none) (hstatus : ∀ f, t.status ≠ .faulted f) :
    ∀ f, t.signals.error = some f ↔ t.status = .faulted f := by
  intro f
  simp [hsignal, hstatus f]

/-- A running machine that meets the invariant names a word of the instruction segment by `LAST_ADDR` (R27). -/
theorem lastAddrInSegment_of_running {s : State} (hinv : Invariant s) (hrun : s.status = .running) :
    LastAddrInSegment s :=
  hinv.last.resolve_right (by simp [hrun])

section Keeps

variable {s t : State}

/-- What a next state must show when it leaves memory, the parameters and `LAST_ADDR` alone. -/
theorem invariant_of_kept (hinv : Invariant s) (hrun : s.status = .running) (hfixed : KeepsFixed s t)
    (hmem : t.mem = s.mem) (hzero : t.regs[0] = s.regs[0]) (hmirror : t.pcMirror = t.pc)
    (herror : ∀ f, t.signals.error = some f ↔ t.status = .faulted f) : Invariant t := by
  obtain ⟨hcfg, hlast⟩ := hfixed
  exact
    { config := hcfg ▸ hinv.config
      zero := hzero.trans hinv.zero
      mirror := hmirror
      memory := hmem ▸ hinv.memory
      inside := hmem ▸ hcfg ▸ hinv.inside
      last := .inl (by simpa [LastAddrInSegment, hcfg, hlast] using lastAddrInSegment_of_running hinv hrun)
      error := herror }

/-- A fault changes nothing that the invariant reads but the two error records, which agree (R310, R320). -/
theorem invariant_faulted (hinv : Invariant s) (hrun : s.status = .running) (g : ControlSignals)
    (address : Option Word) (f : CoreFault) : Invariant (faulted s g address f) :=
  invariant_of_kept hinv hrun ⟨rfl, rfl⟩ rfl rfl hinv.mirror fun f' => by simp [faulted]

/-- A store at a valid address keeps the canonical form of memory and stays in the array (R51, R58). -/
theorem invariant_stored (hinv : Invariant s) (hrun : s.status = .running) (mask v : Word) {ea : Word}
    (hin : inArray s.cfg ea = true) : Invariant (stored s mask ea v) where
  config := hinv.config
  zero := hinv.zero
  mirror := rfl
  memory := Memory.wf_writeWord _ _ _ hinv.memory
  inside := inside_writeWord v hin hinv.inside
  last := .inl (lastAddrInSegment_of_running (s := s) hinv hrun)
  error := error_agrees_of_none rfl fun f => by simp [stored, hrun]

/-- Every execution of a running machine keeps the invariant. -/
theorem invariant_of_execEffect {k : Kind} (hinv : Invariant s) (hrun : s.status = .running)
    (h : ExecEffect s k t) : Invariant t := by
  have hnotFaulted (f : CoreFault) : s.status ≠ .faulted f := by simp [hrun]
  cases h with
  | wrote g address d v hd hg _ =>
    exact invariant_of_kept hinv hrun ⟨rfl, rfl⟩ rfl (getElem_zero_set v hd) rfl (error_agrees_of_none hg hnotFaulted)
  | stored mask rs imm v hin => exact invariant_stored hinv hrun mask v hin
  | wroteHiLo hi lo =>
    exact invariant_of_kept hinv hrun ⟨rfl, rfl⟩ rfl rfl rfl (error_agrees_of_none rfl hnotFaulted)
  | linkedTo g target hg =>
    exact invariant_of_kept hinv hrun ⟨rfl, rfl⟩ rfl (getElem_zero_set (d := 31#5) _ (by decide)) rfl
      (error_agrees_of_none hg hnotFaulted)
  | signalled num status hstatus =>
    refine invariant_of_kept hinv hrun ⟨rfl, rfl⟩ rfl rfl rfl (error_agrees_of_none rfl fun f => ?_)
    rcases hstatus with rfl | ⟨code, rfl⟩
    · exact hnotFaulted f
    · exact RunStatus.noConfusion
  | wentTo g target hg =>
    exact invariant_of_kept hinv hrun ⟨rfl, rfl⟩ rfl rfl rfl (error_agrees_of_none hg hnotFaulted)
  | faulted _ g address f _ _ _ => exact invariant_faulted hinv hrun g address f

end Keeps

end Sys2Proof.Machine

namespace Sys2Proof

open Sys2Proof.Machine

/-- Settles O18: by the inversion of `step`. Only a store touches memory, and only at a valid address; no write reaches
`x[0]`; a fault sets both error records, and nothing else sets either. -/
theorem stepKeepsMachineInvariant : Obligations.StepKeepsMachineInvariant := by
  intro s t hinv hstep
  obtain ⟨hrun, heffect⟩ := step_effect hstep
  cases heffect with
  | ended =>
    exact invariant_of_kept hinv hrun ⟨rfl, rfl⟩ rfl rfl hinv.mirror
      (error_agrees_of_none rfl fun _ => RunStatus.noConfusion)
  | fetchFault => exact invariant_faulted hinv hrun _ _ _
  | illegal w _ => exact invariant_faulted hinv hrun _ _ _
  | executed k _ h => exact invariant_of_execEffect hinv hrun h

end Sys2Proof
end

section

/-! ### The step: fetch, decode, and what stops a run (R120 to R122) -/

namespace Sys2Proof

open Sys2Proof.Machine Sys2Proof.Effect Sys2Proof.Safety

/-- Settles O7: the hypotheses are the checks of the fetch, so the word at `pc` is fetched and runs. -/
theorem stepRunsDecodedInstruction : Obligations.StepRunsDecodedInstruction := by
  intro s i hrun hle hbase halign hin hdecode
  have hfetch := State.fetch_word hle (fetchable_iff.mpr ⟨hbase, halign⟩) hin
  exact (step_of_word hrun hfetch).trans (State.runWord_ok hdecode)

/-- Settles O8: the comparison with `LAST_ADDR` comes first; below it, a `pc` that is low or misaligned fails the check
of the fetch. -/
theorem fetchEndsOrFaults : Obligations.FetchEndsOrFaults := by
  intro s hrun
  refine ⟨fun hpast => step_of_ended hrun (State.fetch_ended hpast), fun hle hbad => ?_⟩
  have hnot : fetchable s.cfg s.pc = false := by
    rw [← Bool.not_eq_true, fetchable_iff]
    omega
  exact step_of_faulted hrun (State.fetch_faulted hle hnot)

/-- Settles O9: by the run of a word that is `ILLEGAL`. -/
theorem illegalWordFaultsUnchanged : Obligations.IllegalWordFaultsUnchanged := fun _ _ _ hrun hfetch hdecode =>
  (step_of_word hrun hfetch).trans (State.runWord_illegal hdecode)

/-- A word of the instruction segment at or past an address at or above the base shows that address in the array. -/
theorem inArray_of_le_lastAddr {s : State} (hlast : LastAddrInSegment s) (hle : s.pc.toNat ≤ s.lastAddr.toNat)
    (hbase : s.cfg.textBase.toNat ≤ s.pc.toNat) : inArray s.cfg s.pc = true := by
  obtain ⟨-, hlt, -⟩ := hlast
  rw [inArray_iff, arrayEnd]
  omega

/-- Every fetched word runs to a next state, `ILLEGAL` or not. -/
theorem runWord_next (s : State) (w : Word) : ∃ t, s.runWord w = .next t := by
  cases hd : decode s.cfg w with
  | error reason => exact ⟨_, State.runWord_illegal hd⟩
  | ok i =>
    obtain ⟨t, ht⟩ := exec_next i s
    exact ⟨t, (State.runWord_ok hd).trans ht⟩

/-- Settles O12: the one stop of a running machine is a fetch outside the array, and a `pc` that passes the checks lies
between the base and `LAST_ADDR`, a word of the instruction segment. -/
theorem runningMachineAlwaysSteps : Obligations.RunningMachineAlwaysSteps := by
  intro s hinv hrun
  rcases s.fetch_cases with ⟨-, hf⟩ | ⟨-, -, hf⟩ | ⟨hle, hok, hout, -⟩ | ⟨-, -, -, hf⟩
  · exact ⟨_, step_of_ended hrun hf⟩
  · exact ⟨_, step_of_faulted hrun hf⟩
  · obtain ⟨hbase, -⟩ := fetchable_iff.mp hok
    have hin := inArray_of_le_lastAddr (lastAddrInSegment_of_running hinv hrun) (Nat.not_lt.mp hle) hbase
    exact absurd (hin.symm.trans hout) Bool.noConfusion
  · obtain ⟨t, ht⟩ := runWord_next s (s.mem.readWord (wordBase s.cfg s.pc))
    exact ⟨t, (step_of_word hrun hf).trans ht⟩

end Sys2Proof
end

section

/-! ### Signals and reports do not cross cycles (R31, R145) -/

namespace Sys2Proof.Machine

/-- The state with other signals and reports left by the last cycle. -/
def State.withSignals (s : State) (g : ControlSignals) (a : Option Word) (r : Option Reg) : State :=
  { s with signals := g, changedAddr := a, changedReg := r }

section

variable (s : State) (g : ControlSignals) (a : Option Word) (r : Option Reg)

/-- The stages after execute read the signals that execute sets, not those it finds (R120). -/
theorem State.finishCycle_withSignals (rd rt : Reg) (rtv : Word) (g' : ControlSignals) (v : Word) :
    (s.withSignals g a r).finishCycle rd rt rtv g' v = s.finishCycle rd rt rtv g' v := rfl

/-- No execution reads the signals and reports it finds. -/
theorem exec_withSignals (i : Instr) : exec i (s.withSignals g a r) = exec i s := by
  cases i <;> rfl

/-- The cycle clears signals and reports before anything reads them (R123). -/
theorem State.cycle_withSignals : (s.withSignals g a r).cycle = s.cycle := by
  have hfetch : (s.withSignals g a r).fetch = s.fetch := rfl
  unfold State.cycle
  rw [hfetch]
  cases s.fetch with
  | ended | faulted | noMemory => rfl
  | word w =>
    have hdecode : decode (s.withSignals g a r).cfg w = decode s.cfg w := rfl
    simp only [State.runWord, hdecode]
    cases decode s.cfg w with
    | error => rfl
    | ok i => exact exec_withSignals s g a r i

end

end Sys2Proof.Machine

namespace Sys2Proof

open Sys2Proof.Machine

/-- Settles O11: the cleared signals are those of R31, and a cycle does not depend on those it finds. -/
theorem signalsDoNotCrossCycles : Obligations.SignalsDoNotCrossCycles := by
  refine ⟨fun _ => rfl, fun s g a r hrun => ?_⟩
  calc step (s.withSignals g a r) = (s.withSignals g a r).cycle := step_of_running hrun
    _ = s.cycle := s.cycle_withSignals g a r
    _ = step s := (step_of_running hrun).symm

end Sys2Proof
end

section

/-! ### Reset and image load: values and invariant (R340 to R345) -/

namespace Sys2Proof.Machine

open Sys2Proof.Safety

/-- The registers after reset (R340, R341). -/
theorem reg_cleared (c : Config) (r : Reg) : (State.cleared c).reg r = if r = Reg.sp then c.spInit else 0#32 := by
  rw [State.reg_of_regs_set (s := { State.cleared c with regs := Vector.replicate 32 0#32 }) (d := Reg.sp) (by decide) rfl]
  have hzero : ({ State.cleared c with regs := Vector.replicate 32 0#32 } : State).reg r = 0#32 := by
    simp [State.reg]
  rw [hzero]

/-- The invariant of the machine right after reset, whatever the parameters (R340 to R345). -/
theorem invariant_cleared {c : Config} (hc : c.WellFormed) : Invariant (State.cleared c) where
  config := hc
  zero := (State.cleared c).reg_zero
  mirror := rfl
  memory := Memory.wf_nil
  inside := nofun
  last := .inr rfl
  error := fun _ => ⟨nofun, nofun⟩

/-- Storing an image keeps the canonical form of memory. -/
theorem Memory.wf_storeImage (c : Config) (image : List Word) {m : Memory} (k : Nat) (hm : m.wf) :
    (m.storeImage c k image).wf := by
  induction image generalizing m k with
  | nil => exact hm
  | cons w rest ih => exact ih (k + 1) (Memory.wf_writeWord _ _ _ hm)

/-- The entries of a memory with an image stored: old ones, or bytes of the image's words. -/
theorem Memory.mem_storeImage {c : Config} {image : List Word} {m : Memory} {k : Nat} {x : Host.Cell}
    (h : x ∈ m.storeImage c k image) :
    x ∈ m ∨ (wordAddress c k ≤ x.1 ∧ x.1 < wordAddress c (k + image.length)) := by
  induction image generalizing m k with
  | nil => exact .inl h
  | cons w rest ih =>
    simp only [wordAddress, List.length_cons] at ih ⊢
    rcases ih h with hword | hrest
    · rcases Memory.mem_writeWord hword with hold | hnew
      · exact .inl hold
      · simp only [wordAddress] at hnew
        omega
    · omega

/-- The load of an image of no words (R345). -/
theorem State.load_empty (s : State) :
    s.load [] = .next { s with lastAddr := s.cfg.textBase - 4#32, status := .haltedEnd } := rfl

/-- The invariant after the load of 1 to N words (R343, R344): every word lies in the instruction segment, and
`LAST_ADDR` names the last. -/
theorem invariant_loaded {c : Config} {image : List Word} (hc : c.WellFormed) (hle : image.length ≤ c.instrCapacity)
    (hpos : 0 < image.length) :
    Invariant { State.cleared c with
      mem := Memory.storeImage c [] 0 image
      lastAddr := c.textBase + BitVec.ofNat 32 (4 * (image.length - 1))
      status := .running } where
  config := hc
  zero := (State.cleared c).reg_zero
  mirror := rfl
  memory := Memory.wf_storeImage c image 0 Memory.wf_nil
  inside := by
    intro x hx
    obtain hnil | hword := Memory.mem_storeImage hx
    · cases hnil
    · simp only [wordAddress] at hword
      simp only [State.cleared, arrayEnd]
      omega
  last := by
    obtain ⟨-, -, -, hfits⟩ := hc
    have hlast : wordAddress c (image.length - 1) < 2 ^ 32 := by simp only [wordAddress]; omega
    refine .inl ?_
    simp only [LastAddrInSegment, State.cleared, toNat_textBase_add hlast, wordAddress]
    omega
  error := fun _ => ⟨nofun, nofun⟩

end Sys2Proof.Machine

namespace Sys2Proof

open Sys2Proof.Machine Sys2Proof.Safety

/-- Settles O13: only `x[29]` is set in the zeroed register file, and the memory lists nothing. -/
theorem resetLeavesSpecValues : Obligations.ResetLeavesSpecValues := fun c =>
  ⟨reg_cleared c, rfl, rfl, rfl, rfl, fun _ => rfl, rfl⟩

/-- Settles O15: by the load of an image of no words. -/
theorem emptyImageHaltsAtOnce : Obligations.EmptyImageHaltsAtOnce := fun c =>
  ⟨_, (State.cleared c).load_empty, rfl, rfl, rfl⟩

/-- Settles O16: the reference parameters are well-formed. -/
theorem resetMeetsInvariant : Obligations.ResetMeetsInvariant :=
  invariant_cleared (c := Config.reference) (by decide)

/-- Settles O17: an image of no words leaves what reset leaves, one of 1 to N words is `invariant_loaded`, and a longer
one is refused. -/
theorem loadedMachineMeetsInvariant : Obligations.LoadedMachineMeetsInvariant := by
  intro c image t hc hload
  unfold boot at hload
  by_cases hlong : c.instrCapacity < image.length
  · rw [State.load_tooLarge (s := State.cleared c) hlong] at hload
    cases hload
  · rcases List.eq_nil_or_concat image with rfl | hne
    · rw [State.load_empty] at hload
      cases hload
      exact invariant_cleared hc
    · have hpos : 0 < image.length := by obtain ⟨front, w, rfl⟩ := hne; simp
      rw [State.load_words (s := State.cleared c) (Nat.not_lt.mp hlong) hpos] at hload
      cases hload
      exact invariant_loaded hc (Nat.not_lt.mp hlong) hpos

end Sys2Proof
end

section

/-! ### Faults, and what no step changes (R310 to R320) -/

namespace Sys2Proof.Machine

open Sys2Proof.Effect

/-- The causes of a fault of a step, with the value each records (R310). -/
def StepFault (s : State) (f : CoreFault) : Prop :=
  f = .fetchFault s.pc ∨ (∃ w, f = .illegalInstruction w ∧ s.fetch = .word w) ∨ ExecFault s f

/-- An execution that answers a faulted state has changed nothing but the status, the signals and the reports. -/
theorem ExecEffect.of_faulted {s t : State} {k : Kind} {f : CoreFault} (hrun : s.status = .running)
    (h : ExecEffect s k t) (hfault : t.status = .faulted f) :
    ExecFault s f ∧ ∃ g address, t = Effect.faulted s g address f := by
  have hnotFaulted : s.status ≠ .faulted f := by simp [hrun]
  cases h with
  | faulted _ g address f' _ hf _ =>
    cases hfault
    exact ⟨hf, g, address, rfl⟩
  | signalled num status hstatus =>
    rcases hstatus with rfl | ⟨code, rfl⟩
    · exact absurd hfault hnotFaulted
    · cases hfault
  | wrote | stored | wroteHiLo | linkedTo | wentTo => exact absurd hfault hnotFaulted

/-- A step that answers a faulted state has changed nothing but the status, the signals and the reports (R320). -/
theorem step_of_fault {s t : State} {f : CoreFault} (hstep : step s = .next t) (hfault : t.status = .faulted f) :
    StepFault s f ∧ ∃ g address, t = faulted s g address f := by
  obtain ⟨hrun, heffect⟩ := step_effect hstep
  cases heffect with
  | ended => cases hfault
  | fetchFault =>
    cases hfault
    exact ⟨.inl rfl, _, _, rfl⟩
  | illegal w hf =>
    cases hfault
    exact ⟨.inr (.inl ⟨w, rfl, hf⟩), _, _, rfl⟩
  | executed k _ h =>
    obtain ⟨hf, hstate⟩ := h.of_faulted hrun hfault
    exact ⟨.inr (.inr hf), hstate⟩

/-- No execution changes the parameters or `LAST_ADDR`. -/
theorem ExecEffect.keepsFixed {s t : State} {k : Kind} (h : ExecEffect s k t) : KeepsFixed s t := by
  cases h <;> exact ⟨rfl, rfl⟩

end Sys2Proof.Machine

namespace Sys2Proof

open Sys2Proof.Machine Sys2Proof.Effect

/-- Settles O19: a faulted next state is `faulted s g address f`, which keeps every field the statement names. -/
theorem faultsArePrecise : Obligations.FaultsArePrecise := by
  intro s t f hstep hfault
  obtain ⟨-, g, address, rfl⟩ := step_of_fault hstep hfault
  exact ⟨rfl, rfl, fun _ => rfl, ⟨rfl, rfl⟩, fun _ => rfl, ⟨rfl, rfl⟩, rfl⟩

/-- Settles O20: the causes of `step_of_fault`. -/
theorem stepFaultsRecordTheirCause : Obligations.StepFaultsRecordTheirCause := by
  intro s t f hstep hfault
  obtain ⟨hcause, -⟩ := step_of_fault hstep hfault
  rcases hcause with hfetch | hillegal | hbadReg | hmem | hdiv
  · exact .inr (.inr (.inr (.inl hfetch)))
  · exact .inr (.inl hillegal)
  · exact .inl hbadReg
  · exact .inr (.inr (.inl hmem))
  · exact .inr (.inr (.inr (.inr hdiv)))

/-- A record of no format packs to no word. -/
theorem Record.word_of_no_format {r : Record} (h : r.format = none) : r.word = none := by
  simp [Record.word, h]

/-- Settles O21: a record of no format packs to no word, and `BAD_FORMAT` is no cause of a fault of a step. -/
theorem badFormatOnlyFromForeignRecords : Obligations.BadFormatOnlyFromForeignRecords := by
  refine ⟨fun r s hnone => ?_, fun s t r hstep hfault => ?_⟩
  · rw [execRecord, Record.word_of_no_format hnone]
    rfl
  · obtain ⟨hcause, -⟩ := step_of_fault hstep hfault
    simp [StepFault, ExecFault] at hcause

/-- Settles O22: by the inversion of `step`. -/
theorem stepsNeverChangeLastAddr : Obligations.StepsNeverChangeLastAddr := by
  intro s t hstep
  obtain ⟨-, heffect⟩ := step_effect hstep
  cases heffect with
  | ended | fetchFault | illegal => exact ⟨rfl, rfl⟩
  | executed k _ h => exact h.keepsFixed

end Sys2Proof
end

section

/-! ### Memory: what a step stores, and what a load and a fetch read (R57, R58, R355) -/

namespace Sys2Proof.Machine

open Sys2Proof.Effect

/-- Every byte that is not one of the word an address names reads in `t` as in `s`. -/
def KeepsMemoryOutside (s t : State) (ea : Word) : Prop :=
  ∀ a, (a < wordBase s.cfg ea ∨ wordBase s.cfg ea + 4 ≤ a) → t.mem.readByte a = s.mem.readByte a

/-- The same memory reads the same. -/
theorem keepsMemory_of_mem_eq {s t : State} (h : t.mem = s.mem) : KeepsMemory s t := fun _ => by rw [h]

/-- A store keeps every byte outside the word it names (R58). -/
theorem keepsMemoryOutside_stored (s : State) (mask ea v : Word) : KeepsMemoryOutside s (stored s mask ea v) ea :=
  fun a ha => Memory.readByte_writeWord_other _ _ a v ha

/-- What a cycle reports of memory, and what it leaves of it: a reported address lies in the array and no byte outside
its word changes; with none reported, no byte changes. -/
def TouchesReported (s t : State) : Prop :=
  (∀ ea, t.changedAddr = some ea → inArray s.cfg ea = true ∧ KeepsMemoryOutside s t ea) ∧
  (t.changedAddr = none → KeepsMemory s t)

/-- A cycle that leaves memory alone and reports, if anything, an address of the array. -/
theorem touchesReported_of_kept {s t : State} (hmem : t.mem = s.mem) (hreports : ReportsInArray s t.changedAddr) :
    TouchesReported s t :=
  ⟨fun ea hea => ⟨hreports ea hea, fun a _ => keepsMemory_of_mem_eq hmem a⟩, fun _ => keepsMemory_of_mem_eq hmem⟩

/-- The store is the one execution that touches memory, and it reports the address (R145). -/
theorem ExecEffect.touchesReported {s t : State} {k : Kind} (h : ExecEffect s k t) : TouchesReported s t := by
  cases h with
  | stored mask rs imm v hin =>
    refine ⟨fun ea hea => ?_, nofun⟩
    cases hea
    exact ⟨hin, keepsMemoryOutside_stored s mask _ v⟩
  | wrote g address d v _ _ haddress => exact touchesReported_of_kept rfl haddress
  | faulted _ g address f _ _ haddress => exact touchesReported_of_kept rfl haddress
  | wroteHiLo | linkedTo | signalled | wentTo => exact touchesReported_of_kept rfl (reportsInArray_none s)

/-- `idx` and the byte address of the word agree on which addresses name one word (R50, R52). -/
theorem wordBase_eq_iff {c : Config} {x y : Word} : wordBase c y = wordBase c x ↔ wordIndex c y = wordIndex c x := by
  simp only [wordBase, wordAddress]
  omega

/-- Reading the word of `y` after the word of `x` was written: the new one, or the old one (R52, R57, R58). -/
theorem Memory.readWord_writeWord (c : Config) {m : Memory} (x y v : Word) (hm : m.wf) :
    (m.writeWord (wordBase c x) v).readWord (wordBase c y) =
      if wordIndex c y = wordIndex c x then v else m.readWord (wordBase c y) := by
  split
  next hsame => rw [wordBase_eq_iff.mpr hsame, Memory.readWord_writeWord_same _ _ _ hm]
  next hother =>
    have hapart := (wordBase_disjoint c y x).resolve_left fun h => hother (wordBase_eq_iff.mp h)
    exact Memory.readWord_writeWord_other _ _ _ _ hapart

/-- A `MemWrite` that succeeds is at a valid address and writes the masked word (R58). -/
theorem State.of_memWrite {s t : State} {x m v : Word} (h : s.memWrite x m v = .ok t) :
    t.cfg = s.cfg ∧ t.mem = s.mem.writeWord (wordBase s.cfg x) (v &&& m) := by
  cases hin : inArray s.cfg x with
  | false => rw [State.memWrite_fault m v hin] at h; cases h
  | true => rw [State.memWrite_ok m v hin] at h; cases h; exact ⟨rfl, rfl⟩

end Sys2Proof.Machine

namespace Sys2Proof

open Sys2Proof.Machine Sys2Proof.Effect

/-- Settles O24: by the inversion of `step`; the cycles that end at the fetch or the decode report nothing and leave
memory alone. -/
theorem stepTouchesOneWord : Obligations.StepTouchesOneWord := by
  intro s t hstep
  obtain ⟨-, heffect⟩ := step_effect hstep
  cases heffect with
  | ended | fetchFault | illegal => exact touchesReported_of_kept rfl (reportsInArray_none s)
  | executed k _ h => exact h.touchesReported

/-- Settles O25: a read of a word after a write of the same or of another word. -/
theorem loadReadsLatestStore : Obligations.LoadReadsLatestStore := by
  intro s t x y m v n hwf hstore hin
  obtain ⟨hcfg, hmem⟩ := State.of_memWrite hstore
  rw [State.memRead_ok n (hcfg ▸ hin), hcfg, hmem, Memory.readWord_writeWord s.cfg x y _ hwf]

/-- Settles O26: the store is the one of `StoreOf`, the checks of the fetch are the hypotheses, and the fetch reads the
word the store named. -/
theorem storedWordIsFetchedNext : Obligations.StoredWordIsFetchedNext := by
  intro s t rt rs imm hwf hexec hin hpcIn hsame hle halign
  have hstore : StoreOf (.sw rt rs imm) wordMask rt rs imm := storeOf_of_cycle fun _ => rfl
  obtain ⟨hwrites, -⟩ := hstore s
  obtain rfl := next_unique (hwrites hin) hexec
  obtain ⟨hbase, -⟩ := inArray_iff.mp hpcIn
  refine (State.fetch_word hle (fetchable_iff.mpr ⟨hbase, halign⟩) hpcIn).trans (congrArg Fetched.word ?_)
  refine (Memory.readWord_writeWord s.cfg _ _ _ hwf).trans ((if_pos hsame).trans ?_)
  exact BitVec.and_allOnes

end Sys2Proof
end

section

/-! ### The memory stage and the syscall signal (R59, R210 to R213) -/

namespace Sys2Proof.Machine

open Sys2Proof.Effect

section

variable {s : State} {result : Word} (rtv : Word)

/-- A store at a valid address (R59). -/
theorem State.memoryStage_store (hw : s.signals.memWrite = true) (hin : inArray s.cfg result = true) :
    s.memoryStage result rtv = .ok ({ s with
      mem := s.mem.writeWord (wordBase s.cfg result) (rtv &&& s.signals.widthMask),
      changedAddr := some result }, result) := by
  simp [State.memoryStage, hw, State.memWrite_ok _ _ hin]

/-- A load from a valid address (R59). -/
theorem State.memoryStage_load (hw : s.signals.memWrite = false) (hr : s.signals.memRead = true)
    (hin : inArray s.cfg result = true) :
    s.memoryStage result rtv = .ok ({ s with changedAddr := some result },
      s.mem.readWord (wordBase s.cfg result) &&& s.signals.widthMask) := by
  simp [State.memoryStage, hw, hr, State.memRead_ok _ hin]

/-- Neither a store nor a load (R59). -/
theorem State.memoryStage_idle (hw : s.signals.memWrite = false) (hr : s.signals.memRead = false) :
    s.memoryStage result rtv = .ok ({ s with changedAddr := none }, result) := by
  simp [State.memoryStage, hw, hr]

/-- A store or load outside the array (R59). -/
theorem State.memoryStage_fault (hactive : s.signals.memWrite = true ∨ s.signals.memRead = true)
    (hout : inArray s.cfg result = false) : s.memoryStage result rtv = .error (.memFault result) := by
  cases hw : s.signals.memWrite with
  | true => simp [State.memoryStage, hw, State.memWrite_fault _ _ hout]
  | false => simp [State.memoryStage, hw, hactive.resolve_left (by simp [hw]), State.memRead_fault _ hout]

end

/-- A fault of the memory stage ends the cycle with nothing else changed (R132). -/
theorem State.finishCycle_memFault {s : State} {g : ControlSignals} {result : Word} (rd rt : Reg) (rtv : Word)
    (hactive : g.memWrite = true ∨ g.memRead = true) (hok : g.error = none) (hout : inArray s.cfg result = false) :
    s.finishCycle rd rt rtv g result = faulted s g none (.memFault result) := by
  have hstage := State.memoryStage_fault (s := s.executed g) rtv hactive hout
  simp only [State.finishCycle, hok, hstage]
  rfl

end Sys2Proof.Machine

namespace Sys2Proof

open Sys2Proof.Machine

/-- Settles O30: one lemma for each branch of the memory stage, and the end of a cycle that faults there. -/
theorem memoryStageReadsWritesOrPasses : Obligations.MemoryStageReadsWritesOrPasses := fun _ _ rtv =>
  ⟨State.memoryStage_store rtv, State.memoryStage_load rtv, State.memoryStage_idle rtv, State.memoryStage_fault rtv,
    fun rd rt _ hactive hok hout => State.finishCycle_memFault rd rt rtv hactive hok hout⟩

/-- After `syscall` the signal carries `x[2]`, and `x[4]` is as it was (R210, R211). -/
theorem signal_of_syscall {s t : State} (hexec : exec .syscall s = .next t) :
    t.signals.syscallValid = true ∧ t.signals.syscallNum = s.reg 2#5 ∧ t.reg 4#5 = s.reg 4#5 := by
  obtain rfl := next_unique (runs_syscall s) hexec
  exact ⟨rfl, rfl, rfl⟩

/-- Settles O32: the request is read off the signal and `x[4]` by the list of the contract (R211). -/
theorem syscallPresentsRequest : Obligations.SyscallPresentsRequest := by
  intro s t hexec
  obtain ⟨hvalid, hnum, harg⟩ := signal_of_syscall hexec
  refine ⟨hvalid, hnum, harg, ?_, ?_, ?_, ?_, ?_, ?_, ?_, ?_, fun hother => ?_⟩
  case refine_9 =>
    simp only [List.mem_cons, not_or] at hother
    simp [State.hostRequest, hvalid, hnum, hother]
  all_goals
    intro h
    simp [State.hostRequest, hvalid, hnum, harg, h]

end Sys2Proof
end

section

/-! ### HI and LO: who changes them and who depends on them (R25) -/

namespace Sys2Proof.Machine

open Sys2Proof.Effect

/-- The state with other values in HI and LO. -/
def State.withHiLo (s : State) (hi lo : Word) : State := { s with hi := hi, lo := lo }

section

variable (s : State) (hi lo : Word)

/-- The memory stage carries HI and LO through. -/
theorem State.memoryStage_withHiLo (result rtv : Word) : (s.withHiLo hi lo).memoryStage result rtv =
    (s.memoryStage result rtv).map fun p => (p.1.withHiLo hi lo, p.2) := by
  cases hw : s.signals.memWrite with
  | true =>
    cases hin : inArray s.cfg result with
    | true => exact (State.memoryStage_store rtv hw hin) ▸ State.memoryStage_store (s := s.withHiLo hi lo) rtv hw hin
    | false => exact (State.memoryStage_fault rtv (.inl hw) hin) ▸
        State.memoryStage_fault (s := s.withHiLo hi lo) rtv (.inl hw) hin
  | false =>
    cases hr : s.signals.memRead with
    | false => exact (State.memoryStage_idle rtv hw hr) ▸ State.memoryStage_idle (s := s.withHiLo hi lo) rtv hw hr
    | true =>
      cases hin : inArray s.cfg result with
      | true => exact (State.memoryStage_load rtv hw hr hin) ▸
          State.memoryStage_load (s := s.withHiLo hi lo) rtv hw hr hin
      | false => exact (State.memoryStage_fault rtv (.inr hr) hin) ▸
          State.memoryStage_fault (s := s.withHiLo hi lo) rtv (.inr hr) hin

/-- A commit carries HI and LO through. -/
theorem State.commit_withHiLo (n : Nat) (v : Word) :
    (s.withHiLo hi lo).commit n v = (s.commit n v).map fun t => t.withHiLo hi lo := by
  simp only [State.commit]
  split_ifs <;> rfl

/-- The register-write stage carries HI and LO through. -/
theorem State.registerWrite_withHiLo (rd rt : Reg) (v : Word) : (s.withHiLo hi lo).registerWrite rd rt v =
    (s.registerWrite rd rt v).map fun t => t.withHiLo hi lo := by
  have hsignals : (s.withHiLo hi lo).signals = s.signals := rfl
  simp only [State.registerWrite, State.commit_withHiLo, hsignals]
  split_ifs <;> rfl

/-- The halt check carries HI and LO through. -/
theorem State.syscallHalt_withHiLo : (s.withHiLo hi lo).syscallHalt = s.syscallHalt.withHiLo hi lo := by
  have hsignals : (s.withHiLo hi lo).signals = s.signals := rfl
  simp only [State.syscallHalt, hsignals]
  split_ifs <;> rfl

/-- The stages after execute carry HI and LO through: no stage reads or writes them. -/
theorem State.finishCycle_withHiLo (rd rt : Reg) (rtv : Word) (g : ControlSignals) (v : Word) :
    (s.withHiLo hi lo).finishCycle rd rt rtv g v = (s.finishCycle rd rt rtv g v).withHiLo hi lo := by
  have hexecuted : (s.withHiLo hi lo).executed g = (s.executed g).withHiLo hi lo := rfl
  simp only [State.finishCycle, hexecuted, State.memoryStage_withHiLo]
  cases g.error with
  | some f => rfl
  | none =>
    cases (s.executed g).memoryStage v rtv with
    | error f => rfl
    | ok p =>
      obtain ⟨m, readValue⟩ := p
      have hsignals : (m.withHiLo hi lo).signals = m.signals := rfl
      simp only [Except.map, State.registerWrite_withHiLo, hsignals]
      cases m.registerWrite rd rt (writeValue m.signals readValue v) with
      | error f => rfl
      | ok t => exact State.syscallHalt_withHiLo (t.updatePc v) hi lo

/-- An instruction that neither moves from HI or LO nor writes them runs one cycle whose signals and result do not
depend on them. -/
theorem exec_withHiLo {i : Instr} (h : readsHiLo i = false) :
    exec i (s.withHiLo hi lo) = Effect.withHiLo hi lo (exec i s) := by
  cases i
  case mfhi | mflo | mthi | mtlo | mult | multu | div | divu => cases h
  case jal | jalr => exact congrArg Host.Outcome.next (State.finishCycle_withHiLo s.link hi lo _ _ _ _ _)
  all_goals exact congrArg Host.Outcome.next (State.finishCycle_withHiLo s hi lo _ _ _ _ _)

end

/-- Of the effects of an execution, only that of the HI/LO writers changes HI or LO. -/
theorem ExecEffect.keepsHiLo {s t : State} {k : Kind} (h : ExecEffect s k t) (hk : k ≠ .toHiLo) : KeepsHiLo s t := by
  cases h with
  | wroteHiLo => exact absurd rfl hk
  | wrote | stored | linkedTo | signalled | wentTo | faulted => exact ⟨rfl, rfl⟩

end Sys2Proof.Machine

namespace Sys2Proof

open Sys2Proof.Machine

/-- Settles O23: the first part by the inversion of `exec`, the second because the shared stages carry HI and LO
through. -/
theorem onlyHiLoFamilyUsesHiLo : Obligations.OnlyHiLoFamilyUsesHiLo :=
  ⟨fun _ _ _ hi hexec => (exec_effect hexec).keepsHiLo (kind_ne_toHiLo hi), fun _ s hi lo h => exec_withHiLo s hi lo h⟩

end Sys2Proof
end

section

/-! ### Frames: what each kind of instruction leaves unchanged -/

namespace Sys2Proof.Machine

open Sys2Proof.Effect

section

variable {s t : State}

/-- A destination register is the one register that its instruction changes, and it changes no memory. -/
theorem ExecEffect.frame_toRegister {d : Reg} (h : ExecEffect s (.toRegister d) t) :
    (∀ r, r ≠ d → t.reg r = s.reg r) ∧ t.mem = s.mem := by
  cases h with
  | wrote g address _ v _ _ _ => exact ⟨fun r hr => s.reg_set_other d r v hr, rfl⟩
  | faulted => exact ⟨fun _ _ => rfl, rfl⟩

/-- A store changes no register. -/
theorem ExecEffect.frame_toMemory {rs : Reg} {imm : BitVec 16} (h : ExecEffect s (.toMemory rs imm) t) :
    (∀ r, t.reg r = s.reg r) ∧ KeepsMemoryOutside s t (effectiveAddress (s.reg rs) imm) ∧
    (inArray s.cfg (effectiveAddress (s.reg rs) imm) = false → t.mem = s.mem) := by
  cases h with
  | stored mask _ _ v hin =>
    exact ⟨fun _ => rfl, keepsMemoryOutside_stored s mask _ v, fun hout => absurd (hin.symm.trans hout) nofun⟩
  | faulted => exact ⟨fun _ => rfl, fun _ _ => rfl, fun _ => rfl⟩

/-- A HI/LO writer changes no general register and no memory. -/
theorem ExecEffect.frame_toHiLo (h : ExecEffect s .toHiLo t) : (∀ r, t.reg r = s.reg r) ∧ t.mem = s.mem := by
  cases h <;> exact ⟨fun _ => rfl, rfl⟩

/-- A jump or branch without a link changes no register, no memory and not the run status. -/
theorem ExecEffect.frame_transfer (h : ExecEffect s .transfer t) :
    (∀ r, t.reg r = s.reg r) ∧ t.mem = s.mem ∧ t.status = s.status := by
  cases h with
  | wentTo => exact ⟨fun _ => rfl, rfl, rfl⟩
  | faulted _ _ _ _ hk => exact absurd trivial hk

/-- A syscall changes no register and no memory. -/
theorem ExecEffect.frame_trap (h : ExecEffect s .trap t) : (∀ r, t.reg r = s.reg r) ∧ t.mem = s.mem := by
  cases h with
  | signalled => exact ⟨fun _ => rfl, rfl⟩
  | faulted _ _ _ _ hk => exact absurd trivial hk

/-- A jump with a link changes no register but `x[31]`, no memory and not the run status. -/
theorem ExecEffect.frame_link (h : ExecEffect s .link t) :
    (∀ r, r ≠ Reg.ra → t.reg r = s.reg r) ∧ t.mem = s.mem ∧ t.status = s.status := by
  cases h with
  | linkedTo g target _ => exact ⟨fun r hr => s.reg_set_other Reg.ra r _ hr, rfl, rfl⟩
  | faulted _ _ _ _ hk => exact absurd trivial hk

end

end Sys2Proof.Machine

namespace Sys2Proof

open Sys2Proof.Machine Sys2Proof.Effect

/-- Settles O55: the kind `toRegister`. -/
theorem registerResultFrame : Obligations.RegisterResultFrame := by
  intro i d s t hd hexec
  have heffect := kind_of_destination hd ▸ exec_effect hexec
  obtain ⟨hregs, hmem⟩ := heffect.frame_toRegister
  exact ⟨hregs, heffect.keepsHiLo nofun, keepsMemory_of_mem_eq hmem, heffect.keepsFixed⟩

/-- Settles O56: the kind `toHiLo`; `mthi` and `mtlo` write the old value of the other half. -/
theorem hiLoWriterFrame : Obligations.HiLoWriterFrame := by
  intro i s t hi hexec
  have heffect := kind_of_writesHiLo hi ▸ exec_effect hexec
  obtain ⟨hregs, hmem⟩ := heffect.frame_toHiLo
  refine ⟨hregs, keepsMemory_of_mem_eq hmem, heffect.keepsFixed, ?_, ?_⟩
  · rintro rs rfl
    rw [← next_unique (runs_mthi s rs) hexec]
    rfl
  · rintro rs rfl
    rw [← next_unique (runs_mtlo s rs) hexec]
    rfl

/-- A state that keeps registers, HI, LO, memory, parameters and `LAST_ADDR` as O57 asks, from the frame of its kind. -/
theorem transfer_frame {s t : State} {i : Instr} (hkind : kind i = .transfer) (hexec : exec i s = .next t) :
    (∀ r, t.reg r = s.reg r) ∧ KeepsHiLo s t ∧ KeepsMemory s t ∧ KeepsFixed s t ∧
    (i ≠ .syscall → t.status = s.status) := by
  have heffect := hkind ▸ exec_effect hexec
  obtain ⟨hregs, hmem, hstatus⟩ := heffect.frame_transfer
  exact ⟨hregs, heffect.keepsHiLo nofun, keepsMemory_of_mem_eq hmem, heffect.keepsFixed, fun _ => hstatus⟩

/-- Settles O57: the kinds `transfer` and, for a syscall, `trap`. -/
theorem controlTransferFrame : Obligations.ControlTransferFrame := by
  rintro s t i (⟨rs, rfl⟩ | ⟨x, rfl⟩ | ⟨rs, rt, imm, rfl⟩ | ⟨rs, rt, imm, rfl⟩ | rfl) hexec
  case inr.inr.inr.inr =>
    have heffect : ExecEffect s .trap t := exec_effect hexec
    obtain ⟨hregs, hmem⟩ := heffect.frame_trap
    exact ⟨hregs, heffect.keepsHiLo nofun, keepsMemory_of_mem_eq hmem, heffect.keepsFixed, fun hne => absurd rfl hne⟩
  all_goals exact transfer_frame rfl hexec

/-- Settles O58: the kind `link`. -/
theorem linkFrame : Obligations.LinkFrame := by
  intro s t i hi hexec
  have hkind : kind i = .link := by rcases hi with ⟨rs, rfl⟩ | ⟨x, rfl⟩ <;> rfl
  have heffect := hkind ▸ exec_effect hexec
  obtain ⟨hregs, hmem, hstatus⟩ := heffect.frame_link
  exact ⟨hregs, heffect.keepsHiLo nofun, keepsMemory_of_mem_eq hmem, heffect.keepsFixed, hstatus⟩

/-- Settles O59: the kind `toMemory`. -/
theorem storeFrame : Obligations.StoreFrame := by
  intro i rs imm s t hi hexec
  have heffect := kind_of_storeOperands hi ▸ exec_effect hexec
  obtain ⟨hregs, hbytes, hout⟩ := heffect.frame_toMemory
  refine ⟨hregs, heffect.keepsHiLo nofun, heffect.keepsFixed, ?_⟩
  rintro _ rfl
  exact ⟨hbytes, fun h => keepsMemory_of_mem_eq (hout h)⟩

end Sys2Proof
end


section

/-! ### The decoder, row by row (R84, R88 to R90) -/

namespace Sys2Proof

open Sys2Proof.Effect

/-! #### Selecting a row -/

/-- A word selects the rows with its opcode and, if they have a funct, its funct (R84). -/
theorem Row.keyed_iff_fields {w : Word} {r : Row} :
    r.keyed w = true ↔ fieldOpcode w = r.opcode ∧ ∀ f, r.funct = some f → fieldFunct w = f := by
  unfold Row.keyed
  cases r.funct <;> simp

/-- What selects a row. -/
def Row.key (r : Row) : BitVec 6 × Option (BitVec 6) := (r.opcode, r.funct)

/-- What of a word selects its row: the opcode, and the funct if the opcode is zero (R84). -/
def keyOf (w : Word) : BitVec 6 × Option (BitVec 6) :=
  (fieldOpcode w, if fieldOpcode w = 0#6 then some (fieldFunct w) else none)

/-- No two rows of the opcode map have one key (R95). -/
theorem opcodeTable_key_nodup : (opcodeTable.map Row.key).Nodup := by
  decide

/-- The rows with a funct are those with opcode zero (R95). -/
theorem opcodeTable_funct : ∀ r ∈ opcodeTable, r.funct.isSome = true ↔ r.opcode = 0#6 := by
  decide

/-- A word selects the row with its key. -/
theorem Row.keyed_iff {w : Word} {r : Row} (hr : r ∈ opcodeTable) : r.keyed w = true ↔ keyOf w = r.key := by
  have hfunct := opcodeTable_funct r hr
  rw [Row.keyed_iff_fields, keyOf, Row.key, Prod.mk.injEq]
  refine and_congr_right fun h => ?_
  cases hf : r.funct with
  | none =>
    have hne : r.opcode ≠ 0#6 := by simpa [hf] using hfunct
    simp [h, hne]
  | some f =>
    have hzero : r.opcode = 0#6 := by simpa [hf] using hfunct
    simp [h, hzero]

/-- The opcode and funct select exactly one row, wherever it stands in the map (R84). -/
theorem findRow_eq_some_iff {w : Word} {r : Row} : findRow w = some r ↔ r ∈ opcodeTable ∧ r.keyed w = true := by
  refine ⟨fun h => ⟨List.mem_of_find?_eq_some h, List.find?_some h⟩, fun ⟨hmem, hkeyed⟩ => ?_⟩
  obtain ⟨q, hq⟩ : ∃ q, findRow w = some q :=
    Option.isSome_iff_exists.mp (List.find?_isSome.mpr ⟨r, hmem, hkeyed⟩)
  have hqmem : q ∈ opcodeTable := List.mem_of_find?_eq_some hq
  have hqkeyed : q.keyed w = true := List.find?_some hq
  have hkeys : q.key = r.key := ((Row.keyed_iff hqmem).mp hqkeyed).symm.trans ((Row.keyed_iff hmem).mp hkeyed)
  rw [hq, List.inj_on_of_nodup_map opcodeTable_key_nodup hqmem hmem hkeys]

/-! #### What a row accepts -/

/-- The row accepts the word: it is selected and admitted, and the fields it fixes are as it fixes them (R84, R88 to
R90). -/
structure Row.Accepts (r : Row) (c : Config) (w : Word) : Prop where
  keyed : r.keyed w = true
  admitted : r.admitted c = true
  link : r.linkOk w = true
  zero : r.zeroFieldsOk c w = true

/-- A row that is not admitted refuses every word by its name (R90). -/
theorem Row.decode_notAdmitted {c : Config} {r : Row} {op : OptionalOp} (w : Word) (hopt : r.optional = some op)
    (hno : c.admits op = false) : r.decode c w = .error (.notAdmitted op) := by
  simp [Row.decode, Row.admitted, hopt, hno]

/-- An admitted row checks `jalr`'s link field, then the fields it fixes to zero (R88, R89). -/
theorem Row.decode_admitted {c : Config} {r : Row} (w : Word) (hadm : r.admitted c = true) :
    r.decode c w = if r.linkOk w then if r.zeroFieldsOk c w then .ok (r.build w) else .error .fixedFieldNotZero
      else .error .linkNotRa := by
  unfold Row.decode
  rw [hadm]
  cases r.optional <;> rfl

/-- What a selected row makes of a word, when it is an instruction. -/
theorem Row.decode_eq_ok_iff {c : Config} {w : Word} {r : Row} {i : Instr} :
    r.decode c w = .ok i ↔ r.admitted c = true ∧ r.linkOk w = true ∧ r.zeroFieldsOk c w = true ∧ r.build w = i := by
  cases hadm : r.admitted c with
  | false =>
    cases hopt : r.optional with
    | none => simp [Row.admitted, hopt] at hadm
    | some op =>
      rw [Row.decode_notAdmitted w hopt (by simpa [Row.admitted, hopt] using hadm)]
      simp
  | true =>
    rw [Row.decode_admitted w hadm]
    split_ifs with hlink hzero <;> simp [*]

/-- The inversion of `decode`: a word decodes to what the one row that accepts it builds. -/
theorem decode_eq_ok_iff {c : Config} {w : Word} {i : Instr} :
    decode c w = .ok i ↔ ∃ r ∈ opcodeTable, r.Accepts c w ∧ r.build w = i := by
  constructor
  · intro h
    cases hfind : findRow w with
    | none =>
      obtain ⟨e, he⟩ := decode_of_no_row (c := c) hfind
      exact absurd (he.symm.trans h) nofun
    | some r =>
      obtain ⟨hmem, hkeyed⟩ := findRow_eq_some_iff.mp hfind
      obtain ⟨hadm, hlink, hzero, hbuild⟩ := Row.decode_eq_ok_iff.mp ((decode_of_findRow hfind).symm.trans h)
      exact ⟨r, hmem, ⟨hkeyed, hadm, hlink, hzero⟩, hbuild⟩
  · rintro ⟨r, hmem, ⟨hkeyed, hadm, hlink, hzero⟩, hbuild⟩
    exact (decode_of_findRow (findRow_eq_some_iff.mpr ⟨hmem, hkeyed⟩)).trans
      (Row.decode_eq_ok_iff.mpr ⟨hadm, hlink, hzero, hbuild⟩)

/-- A row builds instructions of its own mnemonic and of its own place in the optional set (R90, R95). -/
theorem Row.build_names {r : Row} (hr : r ∈ opcodeTable) (w : Word) :
    (r.build w).record.mnemonic = r.mnemonic ∧ (r.build w).optionalOp = r.optional := by
  revert r
  simp only [opcodeTable, rowsAlu, rowsJumpReg, rowsHiLo, rowsImm, rowsMem, rowsOptional, List.cons_append,
    List.nil_append, List.forall_mem_cons, List.not_mem_nil, IsEmpty.forall_iff, implies_true, and_true]
  and_intros <;> rfl

/-! #### Words by their six fields -/

/-- The word of six fields, in the positions of R81. -/
def packFields (op : BitVec 6) (rs rt rd : Reg) (shamt : BitVec 5) (funct : BitVec 6) : Word :=
  op ++ rs ++ rt ++ rd ++ shamt ++ funct

/-- The word of six fields, as a number. -/
theorem packFields_toNat (op : BitVec 6) (rs rt rd : Reg) (shamt : BitVec 5) (funct : BitVec 6) :
    (packFields op rs rt rd shamt funct).toNat = op.toNat * 2 ^ 26 + rs.toNat * 2 ^ 21 + rt.toNat * 2 ^ 16 +
      rd.toNat * 2 ^ 11 + shamt.toNat * 2 ^ 6 + funct.toNat := by
  simp only [packFields, toNat_concat]
  omega

/-- A word is the word of its fields. -/
theorem packFields_fields (w : Word) :
    packFields (fieldOpcode w) (fieldRs w) (fieldRt w) (fieldRd w) (fieldShamt w) (fieldFunct w) = w := by
  apply BitVec.eq_of_toNat_eq
  have := w.isLt
  simp only [packFields_toNat, fieldOpcode, fieldRs, fieldRt, fieldRd, fieldShamt, fieldFunct,
    BitVec.extractLsb'_toNat, Nat.shiftRight_eq_div_pow]
  omega

/-- Words of equal fields have equal fields. -/
theorem packFields_inj {op op' : BitVec 6} {rs rs' rt rt' rd rd' : Reg} {shamt shamt' : BitVec 5}
    {funct funct' : BitVec 6} :
    packFields op rs rt rd shamt funct = packFields op' rs' rt' rd' shamt' funct' ↔
      op = op' ∧ rs = rs' ∧ rt = rt' ∧ rd = rd' ∧ shamt = shamt' ∧ funct = funct' := by
  have := rs.isLt; have := rs'.isLt; have := rt.isLt; have := rt'.isLt; have := rd.isLt; have := rd'.isLt
  have := shamt.isLt; have := shamt'.isLt; have := funct.isLt; have := funct'.isLt
  simp only [← BitVec.toNat_inj, packFields_toNat]
  omega

/-- A mask acts field by field. -/
theorem packFields_and (op op' : BitVec 6) (rs rs' rt rt' rd rd' : Reg) (shamt shamt' : BitVec 5)
    (funct funct' : BitVec 6) :
    packFields op rs rt rd shamt funct &&& packFields op' rs' rt' rd' shamt' funct' =
      packFields (op &&& op') (rs &&& rs') (rt &&& rt') (rd &&& rd') (shamt &&& shamt') (funct &&& funct') := by
  refine BitVec.eq_of_getLsbD_eq fun i _ => ?_
  simp only [packFields, BitVec.getLsbD_and, BitVec.getLsbD_append]
  split_ifs <;> rfl

/-- The complement acts field by field. -/
theorem packFields_not (op : BitVec 6) (rs rt rd : Reg) (shamt : BitVec 5) (funct : BitVec 6) :
    ~~~packFields op rs rt rd shamt funct = packFields (~~~op) (~~~rs) (~~~rt) (~~~rd) (~~~shamt) (~~~funct) := by
  refine BitVec.eq_of_getLsbD_eq fun i hi => ?_
  simp only [packFields, BitVec.getLsbD_not, BitVec.getLsbD_append]
  split_ifs <;> grind

/-- The I-format word of a word's own operand fields (R82). -/
theorem packI_fields (op : BitVec 6) (rs rt : Reg) (w : Word) :
    packI op rs rt (fieldImm w) = packFields op rs rt (fieldRd w) (fieldShamt w) (fieldFunct w) := by
  apply BitVec.eq_of_toNat_eq
  simp only [packI_toNat, packFields_toNat, fieldImm, fieldRd, fieldShamt, fieldFunct, BitVec.extractLsb'_toNat,
    Nat.shiftRight_eq_div_pow]
  omega

/-- The J-format word of a word's own target field (R83). -/
theorem packJ_fields (op : BitVec 6) (w : Word) :
    packJ op (fieldTarget w) =
      packFields op (fieldRs w) (fieldRt w) (fieldRd w) (fieldShamt w) (fieldFunct w) := by
  apply BitVec.eq_of_toNat_eq
  simp only [packJ_toNat, packFields_toNat, fieldTarget, fieldRs, fieldRt, fieldRd, fieldShamt, fieldFunct,
    BitVec.extractLsb'_toNat, Nat.shiftRight_eq_div_pow]
  omega

end Sys2Proof
end

section

/-! ### The opcode map in mask form (R88, R95) -/

namespace Sys2Proof

open Sys2Proof.Effect

/-- The bits of a field that a row fixes to zero: all or none of them, as the decode setting says (R88). -/
def Row.zeroMask (r : Row) (strict : Bool) (f : FixedField) : BitVec 5 :=
  if strict && r.zero.contains f then 0x1F#5 else 0#5

/-- The bits of a word that a row fixes under a decode setting (R88, R89). -/
def Row.mask (r : Row) (strict : Bool) : Word :=
  packFields 0x3F#6 (r.zeroMask strict .rs) (r.zeroMask strict .rt)
    (if r.linkRd then 0x1F#5 else r.zeroMask strict .rd) (r.zeroMask strict .shamt)
    (if r.funct.isSome then 0x3F#6 else 0#6)

/-- The fixed bits of a row (R95). -/
def Row.pattern (r : Row) : Word :=
  packFields r.opcode 0#5 0#5 (if r.linkRd then Reg.ra else 0#5) 0#5 (r.funct.getD 0#6)

/-- A row of the opcode map in mask form. -/
def Row.maskRow (r : Row) : MaskRow where
  mnemonic := r.mnemonic
  pattern := r.pattern
  strict := r.mask true
  loose := r.mask false
  optional := r.optional

/-- The mask table is the opcode map in mask form; it lists `syscall` last of the R-format rows. -/
theorem maskRows_eq : maskRows = (rowsAlu ++ rowsJumpReg.take 2 ++ rowsHiLo ++ rowsJumpReg.drop 2 ++ rowsImm ++ rowsMem ++
    rowsOptional).map Row.maskRow := by
  rfl

/-- The rows of the mask table are those of the opcode map, in mask form. -/
theorem mem_maskRows_iff {ρ : MaskRow} : ρ ∈ maskRows ↔ ∃ r ∈ opcodeTable, r.maskRow = ρ := by
  have hsplit (r : Row) : r ∈ rowsJumpReg ↔ r ∈ rowsJumpReg.take 2 ∨ r ∈ rowsJumpReg.drop 2 := by
    rw [← List.mem_append, List.take_append_drop]
  rw [maskRows_eq, List.mem_map]
  refine exists_congr fun r => and_congr_left fun _ => ?_
  simp only [opcodeTable, List.mem_append, hsplit]
  tauto

/-- `jalr`, the one row that fixes rd to 31, does not fix it to zero as well. -/
theorem opcodeTable_linkRd : ∀ r ∈ opcodeTable, r.linkRd = true → FixedField.rd ∉ r.zero := by
  decide

/-- A claim about the fields a row fixes, field by field. -/
theorem forall_mem_zero_iff {zero : List FixedField} {P : FixedField → Prop} :
    (∀ f ∈ zero, P f) ↔
      (.rs ∈ zero → P .rs) ∧ (.rt ∈ zero → P .rt) ∧ (.rd ∈ zero → P .rd) ∧ (.shamt ∈ zero → P .shamt) :=
  ⟨fun h => ⟨h _, h _, h _, h _⟩, fun ⟨hrs, hrt, hrd, hshamt⟩ f => by cases f <;> assumption⟩

/-- The check of the fields fixed to zero, as a claim about each (R88). -/
theorem Row.zeroFieldsOk_iff {c : Config} {w : Word} {r : Row} :
    r.zeroFieldsOk c w = true ↔ (c.strictDecode = true → ∀ f ∈ r.zero, f.value w = 0#5) := by
  cases hs : c.strictDecode <;> simp [Row.zeroFieldsOk, hs]

/-- The check of the link field, as a claim (R89). -/
theorem Row.linkOk_iff {w : Word} {r : Row} : r.linkOk w = true ↔ (r.linkRd = true → fieldRd w = Reg.ra) := by
  cases hl : r.linkRd <;> simp [Row.linkOk, hl]

/-- A field under its mask is zero exactly when it is zero where the row fixes it. -/
theorem and_zeroMask_eq_zero {r : Row} {strict : Bool} {f : FixedField} {x : BitVec 5} :
    x &&& r.zeroMask strict f = 0#5 ↔ (strict = true → f ∈ r.zero → x = 0#5) := by
  have hones : x &&& 0x1F#5 = x := BitVec.and_allOnes
  unfold Row.zeroMask
  cases strict <;> by_cases hf : f ∈ r.zero <;> simp [hf, hones]

/-- The rd field under its mask: 31 for `jalr`, else as any other field (R88, R89). -/
theorem and_rdMask_eq {r : Row} {strict : Bool} {x : BitVec 5} :
    x &&& (if r.linkRd then 0x1F#5 else r.zeroMask strict .rd) = (if r.linkRd then Reg.ra else 0#5) ↔
      if r.linkRd then x = Reg.ra else strict = true → .rd ∈ r.zero → x = 0#5 := by
  have hones : x &&& 0x1F#5 = x := BitVec.and_allOnes
  split
  · rw [hones]
  · exact and_zeroMask_eq_zero

/-- The funct field under its mask: the row's funct, or anything. -/
theorem and_functMask_eq {funct : Option (BitVec 6)} {x : BitVec 6} :
    x &&& (if funct.isSome then 0x3F#6 else 0#6) = funct.getD 0#6 ↔ ∀ f, funct = some f → x = f := by
  have hones : x &&& 0x3F#6 = x := BitVec.and_allOnes
  cases funct <;> simp [hones]

/-- The mask form of a row accepts the words that the row accepts (R84, R88 to R90). -/
theorem Row.and_mask_eq_pattern_iff {c : Config} {w : Word} {r : Row} (hr : r ∈ opcodeTable) :
    w &&& r.mask c.strictDecode = r.pattern ↔ r.keyed w = true ∧ r.linkOk w = true ∧ r.zeroFieldsOk c w = true := by
  have hlink := opcodeTable_linkRd r hr
  have hones : fieldOpcode w &&& 0x3F#6 = fieldOpcode w := BitVec.and_allOnes
  rw [Row.keyed_iff_fields, Row.linkOk_iff, Row.zeroFieldsOk_iff, forall_mem_zero_iff]
  conv_lhs => rw [← packFields_fields w]
  rw [Row.mask, Row.pattern, packFields_and, packFields_inj, hones, and_rdMask_eq, and_functMask_eq]
  simp only [and_zeroMask_eq_zero, FixedField.value]
  cases hl : r.linkRd with
  | false =>
    simp only [Bool.false_eq_true, if_false, false_implies, true_and]
    tauto
  | true =>
    have hrd := hlink hl
    simp only [if_true, true_implies]
    tauto

/-- The mask form of a row, admission included (R90). -/
theorem Row.matches_iff {c : Config} {w : Word} {r : Row} (hr : r ∈ opcodeTable) :
    r.maskRow.Matches c w ↔ r.Accepts c w := by
  have hadmitted : r.admitted c = true ↔ ∀ op, r.optional = some op → c.admits op = true := by
    unfold Row.admitted
    cases r.optional <;> simp
  have hmask : (if c.strictDecode then r.maskRow.strict else r.maskRow.loose) = r.mask c.strictDecode := by
    cases c.strictDecode <;> rfl
  rw [MaskRow.Matches, hmask]
  have hbits := Row.and_mask_eq_pattern_iff (c := c) (w := w) hr
  constructor
  · rintro ⟨hopt, hand⟩
    obtain ⟨hkeyed, hlink, hzero⟩ := hbits.mp hand
    exact ⟨hkeyed, hadmitted.mpr hopt, hlink, hzero⟩
  · rintro ⟨hkeyed, hadm, hlink, hzero⟩
    exact ⟨hadmitted.mp hadm, hbits.mpr ⟨hkeyed, hlink, hzero⟩⟩

/-- Settles O3: a word decodes to what the row that accepts it builds, and the mask table is the opcode map in mask
form. -/
theorem decodeAgreesWithMaskTable : Obligations.DecodeAgreesWithMaskTable := by
  intro c w m
  constructor
  · rintro ⟨i, hdecode, rfl⟩
    obtain ⟨r, hr, haccepts, rfl⟩ := decode_eq_ok_iff.mp hdecode
    exact ⟨r.maskRow, mem_maskRows_iff.mpr ⟨r, hr, rfl⟩, (Row.build_names hr w).1.symm, (Row.matches_iff hr).mpr haccepts⟩
  · rintro ⟨ρ, hρ, rfl, hmatches⟩
    obtain ⟨r, hr, rfl⟩ := mem_maskRows_iff.mp hρ
    exact ⟨r.build w, decode_eq_ok_iff.mpr ⟨r, hr, (Row.matches_iff hr).mp hmatches, rfl⟩, (Row.build_names hr w).1⟩

/-! #### A word and the encoding of what it decodes to -/

/-- A word with the bits a row fixes as strict decoding wants them: the row's fixed fields, and the word's others. -/
def Row.canonical (r : Row) (w : Word) : Word :=
  let keep (f : FixedField) := if r.zero.contains f then 0#5 else f.value w
  packFields r.opcode (keep .rs) (keep .rt) (if r.linkRd then Reg.ra else keep .rd) (keep .shamt)
    (r.funct.getD (fieldFunct w))

/-- The encoding of what a row builds from a word carries every field of the word that the row leaves free. `syscall`
is apart: it builds the same of every word (R113). -/
theorem encode_build {r : Row} (hr : r ∈ opcodeTable) (w : Word) :
    r.build w ≠ .syscall → encode (r.build w) = r.canonical w := by
  revert r
  simp only [opcodeTable, rowsAlu, rowsJumpReg, rowsHiLo, rowsImm, rowsMem, rowsOptional, List.cons_append,
    List.nil_append, List.forall_mem_cons, List.not_mem_nil, IsEmpty.forall_iff, implies_true, and_true, encode,
    packI_fields, packJ_fields, ne_eq, not_true_eq_false,
    true_and]
  and_intros <;> exact fun _ => rfl

/-- The free bits of a row: the canonical word has them from the word. -/
theorem Row.canonical_and_not_mask (r : Row) (w : Word) : r.canonical w &&& ~~~r.mask true = w &&& ~~~r.mask true := by
  have hkeep (f : FixedField) : (if r.zero.contains f then 0#5 else f.value w) &&& ~~~r.zeroMask true f =
      f.value w &&& ~~~r.zeroMask true f := by
    unfold Row.zeroMask
    cases r.zero.contains f <;> simp
  have hrd : (if r.linkRd then Reg.ra else if r.zero.contains .rd then 0#5 else fieldRd w) &&&
        ~~~(if r.linkRd then 0x1F#5 else r.zeroMask true .rd) =
      fieldRd w &&& ~~~(if r.linkRd then 0x1F#5 else r.zeroMask true .rd) := by
    split
    · simp
    · exact hkeep .rd
  have hfunct : r.funct.getD (fieldFunct w) &&& ~~~(if r.funct.isSome then 0x3F#6 else 0#6) =
      fieldFunct w &&& ~~~(if r.funct.isSome then 0x3F#6 else 0#6) := by
    cases r.funct <;> simp
  conv_rhs => rw [← packFields_fields w]
  simp only [Row.canonical, Row.mask, packFields_not, packFields_and, packFields_inj]
  exact ⟨by simp, hkeep .rs, hkeep .rt, hrd, hkeep .shamt, hfunct⟩

/-- No two rows have one mnemonic. -/
theorem Row.eq_of_mnemonic {r q : Row} (hr : r ∈ opcodeTable) (hq : q ∈ opcodeTable) (h : r.mnemonic = q.mnemonic) :
    r = q := List.inj_on_of_nodup_map opcodeTable_mnemonic_nodup hr hq h

/-- The row that made an instruction of a word, by its mnemonic. -/
theorem exists_row_of_decode {c : Config} {w : Word} {i : Instr} (h : decode c w = .ok i) :
    ∃ r ∈ opcodeTable, r.mnemonic = i.record.mnemonic ∧ r.Accepts c w ∧ r.build w = i := by
  obtain ⟨r, hr, haccepts, rfl⟩ := decode_eq_ok_iff.mp h
  exact ⟨r, hr, (Row.build_names hr w).1.symm, haccepts, rfl⟩

/-- What decodes under any parameters is admitted by them (R90). -/
theorem wellFormed_of_decode {c : Config} {w : Word} {i : Instr} (h : decode c w = .ok i) : i.wellFormed c = true := by
  obtain ⟨r, hr, haccepts, rfl⟩ := decode_eq_ok_iff.mp h
  have hadm := haccepts.admitted
  rwa [Row.admitted, ← (Row.build_names hr w).2] at hadm

/-- The encoding of a decoded instruction decodes to it under strict decoding. -/
theorem decode_strict_encode {c : Config} {w : Word} {i : Instr} (h : decode c w = .ok i) :
    decode { c with strictDecode := true } (encode i) = .ok i :=
  have hwf : i.wellFormed c = true := wellFormed_of_decode h
  decode_encode (c := { c with strictDecode := true }) hwf

/-- The word that a row accepts under strict decoding has the row's fixed bits. -/
theorem and_mask_of_decode_strict {c : Config} {w : Word} {i : Instr} {r : Row} (hstrict : c.strictDecode = true)
    (h : decode c w = .ok i) (hr : r ∈ opcodeTable) (hm : r.mnemonic = i.record.mnemonic) :
    w &&& r.mask true = r.pattern := by
  obtain ⟨q, hq, hqm, haccepts, -⟩ := exists_row_of_decode h
  obtain rfl := Row.eq_of_mnemonic hr hq (hm.trans hqm.symm)
  rw [← hstrict]
  exact (Row.and_mask_eq_pattern_iff hr).mpr ⟨haccepts.keyed, haccepts.link, haccepts.zero⟩

/-- The free bits of the encoding of a decoded instruction are those of the word, `syscall` apart. -/
theorem encode_and_not_mask {c : Config} {w : Word} {i : Instr} {r : Row} (h : decode c w = .ok i)
    (hr : r ∈ opcodeTable) (hm : r.mnemonic = i.record.mnemonic) (hne : i ≠ .syscall) :
    encode i &&& ~~~r.mask true = w &&& ~~~r.mask true := by
  obtain ⟨q, hq, hqm, -, rfl⟩ := exists_row_of_decode h
  obtain rfl := Row.eq_of_mnemonic hr hq (hm.trans hqm.symm)
  rw [encode_build hr w hne, r.canonical_and_not_mask w]

/-- Words that agree in the bits of a mask and in all others are equal. -/
theorem eq_of_and_mask {x y m : Word} (hfixed : x &&& m = y &&& m) (hfree : x &&& ~~~m = y &&& ~~~m) : x = y := by
  have hsplit (z : Word) : (z &&& m) ||| (z &&& ~~~m) = z := by
    ext k
    simp only [BitVec.getElem_or, BitVec.getElem_and, BitVec.getElem_not]
    cases z[k] <;> cases m[k] <;> rfl
  rw [← hsplit x, hfixed, hfree, hsplit y]

/-- The row of `syscall` has no operand bits (R113). -/
theorem syscall_row {r : Row} (hr : r ∈ opcodeTable) (hm : r.mnemonic = "syscall") :
    r.opcode = 0#6 ∧ r.funct = some 0x0C#6 ∧ encode .syscall &&& ~~~r.mask true = 0#32 := by
  have hnamed : rowNamed "syscall" = some _ := rfl
  obtain rfl := Row.eq_of_mnemonic hr (List.mem_of_find?_eq_some hnamed) hm
  exact ⟨rfl, rfl, by decide⟩

/-- Settles O4: the word and the encoding both have the fixed bits of the row, and agree in the free ones. -/
theorem strictWordIsItsEncoding : Obligations.StrictWordIsItsEncoding := by
  intro c w i hstrict hdecode
  obtain ⟨r, hr, hm, haccepts, hbuild⟩ := exists_row_of_decode hdecode
  refine ⟨fun hne => ?_, ?_⟩
  · have hencoded := and_mask_of_decode_strict rfl (decode_strict_encode hdecode) hr hm
    have hword := and_mask_of_decode_strict hstrict hdecode hr hm
    exact eq_of_and_mask (hencoded.trans hword.symm) (encode_and_not_mask hdecode hr hm hne)
  · rintro rfl
    obtain ⟨hopcode, hfunct, -⟩ := syscall_row hr hm
    obtain ⟨hop, hfn⟩ := Row.keyed_iff_fields.mp haccepts.keyed
    exact ⟨hop.trans hopcode, hfn _ hfunct⟩

/-- Settles O5: the row that decodes the word is the one the mask table names by the mnemonic. -/
theorem looseWordDecodesAsItsStrictForm : Obligations.LooseWordDecodesAsItsStrictForm := by
  intro c w i hdecode
  refine ⟨decode_strict_encode hdecode, ?_⟩
  rintro ρ hρ hm
  obtain ⟨r, hr, rfl⟩ := mem_maskRows_iff.mp hρ
  refine ⟨and_mask_of_decode_strict rfl (decode_strict_encode hdecode) hr hm, ?_⟩
  split
  next hsyscall =>
    subst hsyscall
    exact (syscall_row hr hm).2.2.trans (BitVec.and_zero).symm
  next hne => exact encode_and_not_mask hdecode hr hm hne

/-! #### Codes without a row, and the optional rows -/

/-- The primary opcodes of no row (R97). -/
abbrev UnassignedOpcode (op : BitVec 6) : Prop :=
  op ∈ [0x01#6, 0x06#6, 0x07#6, 0x22#6, 0x26#6, 0x27#6, 0x2A#6] ∨ (0x10 ≤ op.toNat ∧ op.toNat ≤ 0x1F) ∨ 0x2C ≤ op.toNat

/-- The functs of no row (R97). -/
abbrev UnassignedFunct (f : BitVec 6) : Prop :=
  f ∈ [0x01#6, 0x05#6, 0x0A#6, 0x0B#6, 0x28#6, 0x29#6] ∨ (0x0D ≤ f.toNat ∧ f.toNat ≤ 0x0F) ∨
    (0x14 ≤ f.toNat ∧ f.toNat ≤ 0x17) ∨ (0x1C ≤ f.toNat ∧ f.toNat ≤ 0x1F) ∨ 0x2C ≤ f.toNat

/-- No row has an unassigned code (R95, R97). -/
theorem opcodeTable_assigned :
    ∀ r ∈ opcodeTable, ¬ UnassignedOpcode r.opcode ∧ ∀ f ∈ r.funct, ¬ UnassignedFunct f := by
  decide

/-- Settles O6: a selected row has the opcode, and with opcode zero the funct, of the word. -/
theorem unassignedCodesAreIllegal : Obligations.UnassignedCodesAreIllegal := by
  intro c w hcodes
  refine decode_of_no_row (Option.eq_none_iff_forall_ne_some.mpr fun r hfind => ?_)
  obtain ⟨hr, hkeyed⟩ := findRow_eq_some_iff.mp hfind
  obtain ⟨hopcode, hfunct⟩ := opcodeTable_assigned r hr
  obtain ⟨hop, hfn⟩ := Row.keyed_iff_fields.mp hkeyed
  rcases hcodes with h | h | h | ⟨hzero, h⟩
  · exact hopcode (hop ▸ .inl h)
  · exact hopcode (hop ▸ .inr (.inl h))
  · exact hopcode (hop ▸ .inr (.inr h))
  · obtain ⟨f, hf⟩ := Option.isSome_iff_exists.mp ((opcodeTable_funct r hr).mpr (hop ▸ hzero))
    exact hfunct f hf (hfn f hf ▸ h)

/-- The encoding of an optional instruction that is not admitted is refused by its name (R90). -/
theorem decode_encode_notAdmitted {c : Config} {i : Instr} {op : OptionalOp} (hopt : i.optionalOp = some op)
    (hno : c.admits op = false) : decode c (encode i) = .error (.notAdmitted op) := by
  obtain ⟨r, hfind, -, -, -, hr⟩ := Laws.ownRow i
  exact (decode_of_findRow hfind).trans (Row.decode_notAdmitted _ (hr.trans hopt) hno)

/-- Settles O60: the default optional set is empty, and what decodes is admitted. -/
theorem defaultAdmitsCoreOnly : Obligations.DefaultAdmitsCoreOnly := by
  have hnone (op : OptionalOp) : Machine.State.reset.cfg.admits op = false := rfl
  refine ⟨fun w i hdecode => ?_, fun i op hopt => decode_encode_notAdmitted hopt (hnone op)⟩
  have hwf := wellFormed_of_decode hdecode
  cases hopt : i.optionalOp with
  | none => rfl
  | some op => simp [Instr.wellFormed, hopt, hnone] at hwf

end Sys2Proof
end

section

/-! ### Encodings, written out -/

namespace Sys2Proof

open Sys2Proof.Effect

/-- A core instruction's word decodes to it under every setting (R99). -/
theorem encoded_of_core {w : Word} {i : Instr} (hw : encode i = w) (hcore : i.optionalOp = none) : Encoded w i := by
  refine ⟨hw, fun c => hw ▸ decode_encode ?_⟩
  simp [Instr.wellFormed, hcore]

/-- An optional instruction's word decodes to it exactly when it is admitted (R90, R99). -/
theorem encodedOptional_of {w : Word} {i : Instr} {op : OptionalOp} (hw : encode i = w)
    (hopt : i.optionalOp = some op) : EncodedOptional op w i := by
  refine ⟨hw, fun c => ?_⟩
  subst hw
  cases hadm : c.admits op with
  | false => exact decode_encode_notAdmitted hopt hadm
  | true => exact decode_encode (by simp [Instr.wellFormed, hopt, hadm])

/-- Settles O1: each word is the encoding of its instruction. -/
theorem sampleWordsDecode : Obligations.SampleWordsDecode := by
  have core {w : Word} {i : Instr} (c : Config) (hw : encode i = w) (hcore : i.optionalOp = none) :
      decode c w = .ok i := (encoded_of_core hw hcore).2 c
  exact fun c => ⟨core c rfl rfl, core c rfl rfl, core c rfl rfl, core c rfl rfl, core c rfl rfl, core c rfl rfl,
    core c rfl rfl, core c rfl rfl, core c rfl rfl, (encodedOptional_of (i := .sllv 10#5 9#5 8#5) rfl rfl).2 _⟩

end Sys2Proof
end

section

/-! ### Arithmetic: the halves of a product, quotients, the half-word multiplier (R195 to R199) -/

namespace Sys2Proof.Machine

/-- The two halves of a 64-bit value make it up. -/
theorem highHalf_append_lowHalf (p : BitVec 64) : (highHalf p ++ lowHalf p : BitVec 64) = p := by
  apply BitVec.eq_of_toNat_eq
  have := p.isLt
  simp only [toNat_concat, highHalf, lowHalf, BitVec.extractLsb'_toNat, Nat.shiftRight_eq_div_pow]
  omega

/-- The range of a signed word. -/
theorem Word.toInt_bounds (a : Word) : -2 ^ 31 ≤ a.toInt ∧ a.toInt < 2 ^ 31 :=
  ⟨BitVec.le_toInt a, BitVec.toInt_lt⟩

/-- The exact signed product fits 64 bits. -/
theorem toInt_productSigned (a b : Word) : (productSigned a b).toInt = a.toInt * b.toInt := by
  obtain ⟨ha, ha'⟩ := Word.toInt_bounds a
  obtain ⟨hb, hb'⟩ := Word.toInt_bounds b
  have hlow : -2 ^ 62 ≤ a.toInt * b.toInt := by nlinarith
  have hhigh : a.toInt * b.toInt ≤ 2 ^ 62 := by nlinarith
  exact BitVec.toInt_ofInt_eq_self (by decide) (by omega) (by omega)

/-- The exact unsigned product fits 64 bits. -/
theorem toNat_productUnsigned (a b : Word) : (productUnsigned a b).toNat = a.toNat * b.toNat := by
  have hlt : a.toNat * b.toNat < 2 ^ 32 * 2 ^ 32 := Nat.mul_lt_mul'' a.isLt b.isLt
  exact Nat.mod_eq_of_lt hlt

/-- The quotient of two words, unsigned, is a word. -/
theorem toNat_quotientUnsigned (a b : Word) : (quotientUnsigned a b).toNat = a.toNat / b.toNat :=
  Nat.mod_eq_of_lt ((Nat.div_le_self _ _).trans_lt a.isLt)

/-- The remainder of two words, unsigned, is a word. -/
theorem toNat_remainderUnsigned (a b : Word) : (remainderUnsigned a b).toNat = a.toNat % b.toNat :=
  Nat.mod_eq_of_lt ((Nat.mod_le _ _).trans_lt a.isLt)

/-- The signed quotient leaves the range of a word only at the overflow corner (R197). -/
theorem tdiv_bounds {a b : Word} (hov : ¬ (a = 0x80000000#32 ∧ b = 0xFFFFFFFF#32)) :
    -2 ^ 31 ≤ a.toInt.tdiv b.toInt ∧ a.toInt.tdiv b.toInt < 2 ^ 31 := by
  obtain ⟨hlow, hhigh⟩ := Word.toInt_bounds a
  by_cases hone : b.toInt = 1
  · rw [hone, Int.tdiv_one]
    exact ⟨hlow, hhigh⟩
  by_cases hminus : b.toInt = -1
  · have hb : b = 0xFFFFFFFF#32 := BitVec.eq_of_toInt_eq hminus
    have ha : a.toInt ≠ -2 ^ 31 := fun h => hov ⟨BitVec.eq_of_toInt_eq h, hb⟩
    rw [hminus, Int.tdiv_neg, Int.tdiv_one]
    omega
  · have habs : (a.toInt.tdiv b.toInt).natAbs = a.toInt.natAbs / b.toInt.natAbs := Int.natAbs_tdiv ..
    have hhalf : a.toInt.natAbs / b.toInt.natAbs ≤ a.toInt.natAbs / 2 := by
      rcases Nat.eq_zero_or_pos b.toInt.natAbs with hzero | hpos
      · simp [hzero]
      · exact Nat.div_le_div_left (by omega) (by decide)
    omega

/-- The signed quotient, truncated toward zero, is a word but at the overflow corner (R197). -/
theorem toInt_quotientSigned {a b : Word} (hov : ¬ (a = 0x80000000#32 ∧ b = 0xFFFFFFFF#32)) :
    (quotientSigned a b).toInt = a.toInt.tdiv b.toInt := by
  obtain ⟨hlow, hhigh⟩ := tdiv_bounds hov
  exact BitVec.toInt_ofInt_eq_self (by decide) hlow hhigh

/-- The signed remainder is a word (R197). -/
theorem toInt_remainderSigned (a b : Word) :
    (remainderSigned a b).toInt = a.toInt - a.toInt.tdiv b.toInt * b.toInt := by
  have hmod : a.toInt - a.toInt.tdiv b.toInt * b.toInt = a.toInt.tmod b.toInt := by
    rw [Int.tmod_def, Int.mul_comm]
  obtain ⟨hlow, hhigh⟩ := Word.toInt_bounds a
  obtain ⟨hblow, hbhigh⟩ := Word.toInt_bounds b
  have hrange : -2 ^ 31 ≤ a.toInt.tmod b.toInt ∧ a.toInt.tmod b.toInt < 2 ^ 31 := by
    by_cases hzero : b.toInt = 0
    · rw [hzero, Int.tmod_zero]
      exact ⟨hlow, hhigh⟩
    · have habs : (a.toInt.tmod b.toInt).natAbs = a.toInt.natAbs % b.toInt.natAbs := Int.natAbs_tmod ..
      have hlt : a.toInt.natAbs % b.toInt.natAbs < b.toInt.natAbs := Nat.mod_lt _ (by omega)
      omega
  rw [remainderSigned, hmod]
  exact BitVec.toInt_ofInt_eq_self (by decide) hrange.1 hrange.2

/-- A product of two words from its partial products of half-words. -/
theorem mul_eq_halves (a b : Nat) : a * b =
    (a / 2 ^ 16) * (b / 2 ^ 16) * 2 ^ 32 +
      ((a % 2 ^ 16) * (b / 2 ^ 16) + (a / 2 ^ 16) * (b % 2 ^ 16)) * 2 ^ 16 + (a % 2 ^ 16) * (b % 2 ^ 16) := by
  conv_lhs => rw [← Nat.div_add_mod a (2 ^ 16), ← Nat.div_add_mod b (2 ^ 16)]
  ring

/-- The half-word multiplier computes the unsigned product (R199). -/
theorem umul64_exact (a b : Word) :
    ((umul64 a b).1 ++ (umul64 a b).2 : BitVec 64) = productUnsigned a b := by
  apply BitVec.eq_of_toNat_eq
  have hprod := mul_eq_halves a.toNat b.toNat
  have hlt : a.toNat * b.toNat < 2 ^ 32 * 2 ^ 32 := Nat.mul_lt_mul'' a.isLt b.isLt
  simp only [umul64, productUnsigned, toNat_concat, BitVec.toNat_ofNat]
  generalize (a.toNat / 2 ^ 16) * (b.toNat / 2 ^ 16) = p11 at *
  generalize (a.toNat % 2 ^ 16) * (b.toNat / 2 ^ 16) = p01 at *
  generalize (a.toNat / 2 ^ 16) * (b.toNat % 2 ^ 16) = p10 at *
  generalize (a.toNat % 2 ^ 16) * (b.toNat % 2 ^ 16) = p00 at *
  generalize a.toNat * b.toNat = p at *
  omega

/-- Subtracting from the high half alone. -/
theorem sub_append (h l b : Word) :
    ((h - b) ++ l : BitVec 64) = (h ++ l : BitVec 64) - (b ++ 0#32 : BitVec 64) := by
  apply BitVec.eq_of_toNat_eq
  have := h.isLt
  have := l.isLt
  have := b.isLt
  simp only [toNat_concat, BitVec.toNat_sub, BitVec.toNat_ofNat]
  omega

/-- The integer a word stands for as signed, from its unsigned value (R11). -/
theorem toInt_eq_toNat_sub (a : Word) : a.toInt = a.toNat - if a.msb then 2 ^ 32 else 0 := by
  rw [BitVec.toInt_eq_msb_cond]
  split <;> simp

/-- A word in the high half is 2^32 times the word, read signed or unsigned. -/
theorem append_zero_eq_ofInt (b : Word) : (b ++ 0#32 : BitVec 64) = BitVec.ofInt 64 (2 ^ 32 * b.toInt) := by
  apply BitVec.eq_of_toNat_eq
  have hlt := b.isLt
  rw [toInt_eq_toNat_sub, toNat_concat, BitVec.toNat_ofInt, BitVec.toNat_ofNat]
  split <;> omega

/-- The same, read unsigned. -/
theorem append_zero_eq_ofInt_toNat (b : Word) : (b ++ 0#32 : BitVec 64) = BitVec.ofInt 64 (2 ^ 32 * b.toNat) := by
  apply BitVec.eq_of_toNat_eq
  have hlt := b.isLt
  rw [toNat_concat, BitVec.toNat_ofInt, BitVec.toNat_ofNat]
  omega

/-- A signed factor, from the unsigned one: the sign bit takes 2^32 times the other factor away. -/
theorem ofInt_toInt_mul (a : Word) (y : Int) : BitVec.ofInt 64 (a.toInt * y) =
    BitVec.ofInt 64 (a.toNat * y) - if a.msb then BitVec.ofInt 64 (2 ^ 32 * y) else 0#64 := by
  rw [toInt_eq_toNat_sub, eq_sub_iff_add_eq]
  split
  · rw [← BitVec.ofInt_add]
    ring_nf
  · simp

/-- The signed product, from the unsigned one: a negative operand takes the other away from the high half (R199). -/
theorem productSigned_eq (a b : Word) : productSigned a b = productUnsigned a b -
    (if a.msb then b ++ 0#32 else 0#64) - if b.msb then a ++ 0#32 else 0#64 := by
  have hunsigned : productUnsigned a b = BitVec.ofInt 64 (b.toNat * a.toNat) := by
    rw [productUnsigned, ← BitVec.ofInt_natCast, Nat.cast_mul, mul_comm]
  rw [productSigned, ofInt_toInt_mul, mul_comm, ofInt_toInt_mul, hunsigned, append_zero_eq_ofInt_toNat a,
    append_zero_eq_ofInt b, sub_right_comm]

/-- The corrected half-word multiplier computes the signed product (R199). -/
theorem smul64_exact (a b : Word) : ((smul64 a b).1 ++ (smul64 a b).2 : BitVec 64) = productSigned a b := by
  rw [productSigned_eq, ← umul64_exact]
  simp only [smul64]
  split_ifs <;> simp [sub_append]

end Sys2Proof.Machine

namespace Sys2Proof

open Sys2Proof.Machine Sys2Proof.Effect

/-- Settles O31: the unsigned algorithm by the partial products, the signed one by the two corrections. -/
theorem longMultiplierIsExact : Obligations.LongMultiplierIsExact := fun a b => ⟨umul64_exact a b, smul64_exact a b⟩

/-- Settles O41: the halves make up the product, which fits 64 bits. -/
theorem multiplyIsExact : Obligations.MultiplyIsExact := by
  intro s rs rt
  refine ⟨encoded_of_core rfl rfl, encoded_of_core rfl rfl, ⟨_, _, runs_mult s rs rt, ?_⟩, ⟨_, _, runs_multu s rs rt, ?_⟩⟩
  · rw [highHalf_append_lowHalf, toInt_productSigned]
  · rw [highHalf_append_lowHalf, toNat_productUnsigned]

/-- Settles O42: the corners are tested before anything is written; elsewhere quotient and remainder are words. -/
theorem divideTruncatesOrFaults : Obligations.DivideTruncatesOrFaults := by
  intro s rs rt
  refine ⟨encoded_of_core rfl rfl, encoded_of_core rfl rfl, fun h => ⟨runs_div_by_zero h, runs_divu_by_zero h⟩,
    runs_div_overflow, fun hne hov => ?_, fun hne => ?_⟩
  · have hquotient := toInt_quotientSigned hov
    refine ⟨_, _, runs_div hne hov, hquotient, ?_⟩
    rw [hquotient, toInt_remainderSigned]
  · exact ⟨_, _, runs_divu hne, toNat_quotientUnsigned _ _, toNat_remainderUnsigned _ _⟩

end Sys2Proof
end

section

/-! ### The instructions: encoding and whole after-states (R160 to R291) -/

namespace Sys2Proof

open Sys2Proof.Machine Sys2Proof.Effect

/-- Settles O33: a sum or difference of words wraps, and the shared cycle writes it or raises `BAD_REG`. -/
theorem addSubAddiWrap : Obligations.AddSubAddiWrap := by
  refine ⟨fun rd rs rt => ⟨encoded_of_core rfl rfl, ?_, encoded_of_core rfl rfl, ?_⟩,
    fun rt rs imm => ⟨encoded_of_core rfl rfl, ?_⟩⟩
  · exact resultToRd_of_cycle fun _ => ⟨_, _, rfl⟩
  · exact resultToRd_of_cycle fun _ => ⟨_, _, rfl⟩
  · exact resultToRt_of_cycle fun _ => ⟨_, rfl⟩

/-- Settles O34: each is a three-register cycle with its own operation of the ALU. -/
theorem bitwiseRegisterResults : Obligations.BitwiseRegisterResults := fun _ _ _ =>
  ⟨encoded_of_core rfl rfl, resultToRd_of_cycle fun _ => ⟨_, _, rfl⟩,
   encoded_of_core rfl rfl, resultToRd_of_cycle fun _ => ⟨_, _, rfl⟩,
   encoded_of_core rfl rfl, resultToRd_of_cycle fun _ => ⟨_, _, rfl⟩,
   encoded_of_core rfl rfl, resultToRd_of_cycle fun _ => ⟨_, _, rfl⟩⟩

/-- Settles O35: each shifts rt by the field, in a cycle that writes rd. -/
theorem shiftByAmountResults : Obligations.ShiftByAmountResults := fun _ _ _ =>
  ⟨encoded_of_core rfl rfl, resultToRd_of_cycle fun _ => ⟨_, _, rfl⟩,
   encoded_of_core rfl rfl, resultToRd_of_cycle fun _ => ⟨_, _, rfl⟩,
   encoded_of_core rfl rfl, resultToRd_of_cycle fun _ => ⟨_, _, rfl⟩⟩

/-- A signed compare, as the word it writes (R28, R170). -/
theorem setLess_eq (a b : Word) : setLess a b = if a.toInt < b.toInt then 1#32 else 0#32 := by
  simp [setLess, boolWord]

/-- An unsigned compare, as the word it writes (R28, R283). -/
theorem setLessUnsigned_eq (a b : Word) : setLessUnsigned a b = if a.toNat < b.toNat then 1#32 else 0#32 := by
  simp [setLessUnsigned, boolWord]

/-- The count of a variable shift is rs modulo 32 (R284). -/
theorem toNat_variableCount (a : Word) : (variableCount a).toNat = a.toNat % 32 := by
  simp [variableCount]

/-- Settles O36: the compare of the ALU, as the word it writes. -/
theorem setLessThanIsSigned : Obligations.SetLessThanIsSigned := by
  refine fun rd rs rt => ⟨encoded_of_core rfl rfl, ?_⟩
  simp only [← setLess_eq]
  exact resultToRd_of_cycle fun _ => ⟨_, _, rfl⟩

/-- Settles O37: `runs_jr`. -/
theorem jumpRegisterGoesToRegister : Obligations.JumpRegisterGoesToRegister := fun s rs =>
  ⟨encoded_of_core rfl rfl, runs_jr s rs⟩

/-- Settles O38: `runs_jalr`, whose target is read before the link is written. -/
theorem jumpRegisterLinks : Obligations.JumpRegisterLinks := fun s rs => ⟨encoded_of_core rfl rfl, runs_jalr s rs⟩

/-- Settles O39: both are cycles that write rd, and reset leaves HI and LO zero. -/
theorem moveFromHiLoResults : Obligations.MoveFromHiLoResults := fun _ =>
  ⟨encoded_of_core rfl rfl, resultToRd_of_cycle fun _ => ⟨_, _, rfl⟩,
   encoded_of_core rfl rfl, resultToRd_of_cycle fun _ => ⟨_, _, rfl⟩, fun _ => ⟨rfl, rfl⟩⟩

/-- Settles O40: each writes one half and writes the old value of the other. -/
theorem moveToHiLoResults : Obligations.MoveToHiLoResults := fun s rs =>
  ⟨encoded_of_core rfl rfl, runs_mthi s rs, encoded_of_core rfl rfl, runs_mtlo s rs⟩

/-- `syscall`, with the status the halt check leaves (R212). -/
theorem runs_syscall_of_status {s : State} {status : RunStatus} (h : syscallStatus s = status) : Runs .syscall s
    { wentTo s (Signals.syscall (s.reg Reg.v0)) (s.pc + 4#32) with status := status } :=
  h ▸ runs_syscall s

/-- Any word with the opcode and funct of `syscall` decodes to it: its row fixes no other bit (R113). -/
theorem decode_syscall (c : Config) (code : BitVec 20) : decode c (0#6 ++ code ++ 0x0C#6 : BitVec 32) = .ok .syscall := by
  have hfields : fieldOpcode (0#6 ++ code ++ 0x0C#6) = 0#6 ∧ fieldFunct (0#6 ++ code ++ 0x0C#6) = 0x0C#6 := by
    simp only [← BitVec.toNat_inj, fieldOpcode, fieldFunct, BitVec.extractLsb'_toNat, toNat_concat, BitVec.toNat_ofNat,
      Nat.shiftRight_eq_div_pow]
    omega
  have hfind := (Laws.OwnRow.findRow_eq _ _ _ hfields.1 hfields.2).trans rfl
  exact (decode_of_findRow hfind).trans (Row.decode_eq_ok rfl nofun nofun)

/-- Settles O43: the ignored bits are fixed by no row, and the three cases are those of the halt check. -/
theorem syscallSignalsOrExits : Obligations.SyscallSignalsOrExits := by
  refine ⟨encoded_of_core rfl rfl, decode_syscall, fun s => ?_⟩
  refine ⟨fun h => ?_, fun h => ?_, fun h10 h17 => ?_⟩
  · exact runs_syscall_of_status (if_pos h)
  · have h10 : s.reg 2#5 ≠ 10#32 := by rw [h]; decide
    exact runs_syscall_of_status ((if_neg h10).trans (if_pos h))
  · exact runs_syscall_of_status ((if_neg h10).trans (if_neg h17))

/-- Settles O44: each is an immediate cycle, and every immediate is sign-extended. -/
theorem bitwiseImmediatesSignExtend : Obligations.BitwiseImmediatesSignExtend := fun _ _ _ =>
  ⟨encoded_of_core rfl rfl, resultToRt_of_cycle fun _ => ⟨_, rfl⟩,
   encoded_of_core rfl rfl, resultToRt_of_cycle fun _ => ⟨_, rfl⟩,
   encoded_of_core rfl rfl, resultToRt_of_cycle fun _ => ⟨_, rfl⟩⟩

/-- The sign bits of the immediate of `lui` are shifted out (R225). -/
theorem simm_shiftLeft (imm : BitVec 16) : simm imm <<< 16 = (imm ++ 0#16 : BitVec 32) := by
  refine BitVec.eq_of_getLsbD_eq fun k hk => ?_
  simp only [simm, sext32, BitVec.getLsbD_shiftLeft, BitVec.getLsbD_signExtend, BitVec.getLsbD_append]
  grind

/-- Settles O45: the shift leaves nothing of the sign extension. -/
theorem loadUpperImmediateResult : Obligations.LoadUpperImmediateResult := by
  refine fun rt imm => ⟨encoded_of_core rfl rfl, ?_⟩
  simp only [← simm_shiftLeft]
  exact resultToRt_of_cycle fun _ => ⟨_, rfl⟩

/-- Settles O46: equality of the registers decides whether the branch is taken. -/
theorem branchesTakenOrNot : Obligations.BranchesTakenOrNot := by
  intro s rs rt imm
  have hbeq (taken : Bool) (h : (s.reg rs == s.reg rt) = taken) :
      exec (.beq rs rt imm) s = branchCycle taken rt (s.reg rt) imm s := by rw [← h]; rfl
  have hbne (taken : Bool) (h : (s.reg rs != s.reg rt) = taken) :
      exec (.bne rs rt imm) s = branchCycle taken rt (s.reg rt) imm s := by rw [← h]; rfl
  refine ⟨encoded_of_core rfl rfl, encoded_of_core rfl rfl, fun heq => ⟨?_, ?_⟩, fun hne => ⟨?_, ?_⟩⟩
  · exact (hbeq true (by simp [heq])).trans (branchCycle_taken ..)
  · exact (hbne false (by simp [heq])).trans (branchCycle_notTaken ..)
  · exact (hbeq false (by simp [hne])).trans (branchCycle_notTaken ..)
  · exact (hbne true (by simp [hne])).trans (branchCycle_taken ..)

/-- Settles O47: load cycles with the byte and halfword masks. -/
theorem narrowLoadsZeroExtend : Obligations.NarrowLoadsZeroExtend := fun _ _ _ =>
  ⟨encoded_of_core rfl rfl, loadOf_of_cycle fun _ => rfl, encoded_of_core rfl rfl, loadOf_of_cycle fun _ => rfl⟩

/-- Settles O48: a load cycle with the word mask. -/
theorem wordLoadReadsWord : Obligations.WordLoadReadsWord := fun _ _ _ =>
  ⟨encoded_of_core rfl rfl, loadOf_of_cycle fun _ => rfl⟩

/-- Settles O49: store cycles with the byte and halfword masks. -/
theorem narrowStoresClearTheRest : Obligations.NarrowStoresClearTheRest := fun _ _ _ =>
  ⟨encoded_of_core rfl rfl, storeOf_of_cycle fun _ => rfl, encoded_of_core rfl rfl, storeOf_of_cycle fun _ => rfl⟩

/-- Settles O50: a store cycle with the word mask. -/
theorem wordStoreWritesWord : Obligations.WordStoreWritesWord := fun _ _ _ =>
  ⟨encoded_of_core rfl rfl, storeOf_of_cycle fun _ => rfl⟩

/-- The jump target is the 26-bit field times 4: the shift loses no bit (R270). -/
theorem jumpTarget_eq (target : BitVec 26) : jumpTarget target = BitVec.ofNat 32 (4 * target.toNat) := by
  apply BitVec.eq_of_toNat_eq
  have := target.isLt
  simp only [jumpTarget, BitVec.toNat_shiftLeft, BitVec.toNat_setWidth, BitVec.toNat_ofNat, Nat.shiftLeft_eq]
  omega

/-- Settles O51: the target field times 4 fits 32 bits. -/
theorem jumpsAreAbsolute : Obligations.JumpsAreAbsolute := by
  intro s target
  rw [← jumpTarget_eq]
  exact ⟨encoded_of_core rfl rfl, encoded_of_core rfl rfl, runs_j s target, runs_jal s target⟩

/-- Settles O52: each is a core form with its own operation; the count of a variable shift is rs modulo 32. -/
theorem optionalRegisterResults : Obligations.OptionalRegisterResults := by
  intro rd rs rt
  simp only [← setLessUnsigned_eq, ← toNat_variableCount]
  exact ⟨encodedOptional_of rfl rfl, resultToRd_of_cycle fun _ => ⟨_, _, rfl⟩,
    encodedOptional_of rfl rfl, resultToRd_of_cycle fun _ => ⟨_, _, rfl⟩,
    encodedOptional_of rfl rfl, resultToRd_of_cycle fun _ => ⟨_, _, rfl⟩,
    encodedOptional_of rfl rfl, resultToRd_of_cycle fun _ => ⟨_, _, rfl⟩,
    encodedOptional_of rfl rfl, resultToRd_of_cycle fun _ => ⟨_, _, rfl⟩,
    encodedOptional_of rfl rfl, resultToRd_of_cycle fun _ => ⟨_, _, rfl⟩⟩

/-- Sign extension keeps the integer (R12). -/
theorem toInt_simm (imm : BitVec 16) : (simm imm).toInt = imm.toInt :=
  BitVec.toInt_signExtend_of_le (by decide)

/-- Settles O53: immediate cycles; sign extension keeps the integer that `slti` compares. -/
theorem optionalImmediateResults : Obligations.OptionalImmediateResults := by
  intro rt rs imm
  simp only [← toInt_simm, ← setLess_eq, ← setLessUnsigned_eq]
  exact ⟨encodedOptional_of rfl rfl, resultToRt_of_cycle fun _ => ⟨_, rfl⟩,
    encodedOptional_of rfl rfl, resultToRt_of_cycle fun _ => ⟨_, rfl⟩,
    encodedOptional_of rfl rfl, resultToRt_of_cycle fun _ => ⟨_, rfl⟩⟩

/-- Settles O54: the load cycles of `lb` and `lh`. -/
theorem optionalLoadsZeroExtend : Obligations.OptionalLoadsZeroExtend := fun _ _ _ =>
  ⟨encodedOptional_of rfl rfl, loadOf_of_cycle fun _ => rfl, encodedOptional_of rfl rfl, loadOf_of_cycle fun _ => rfl⟩

end Sys2Proof
end
